-- ==== Sys2Proof/Word.lean ====
section
/-!
DEFINITION. The widths of the machine's words (spec/00_scope.md R5, R6, R7).
Bit 0 is the least significant bit; every value is unsigned.
-/

namespace Sys2Proof

/-- A byte: a memory cell, a V register, a timer, the immediate nn (R5, R6). -/
abbrev Byte := BitVec 8

/-- A 16-bit word: an opcode, I, pc, a stack slot (R5, R6). -/
abbrev Word := BitVec 16

/-- The 12-bit immediate nnn, an address or an offset (R81, R82). -/
abbrev Addr12 := BitVec 12

/-- A register field x or y: it always names one of V0..VF (R21). -/
abbrev RegIdx := Fin 16

/-- The immediate n of DXYN, a row count 0..15 (R81, R82). -/
abbrev RowCount := Fin 16

end Sys2Proof
end

