-- ==== Sys2Proof/Machine/Flags.lean ====
section
/-!
DEFINITION. The values of the flag VF (spec/10_state.md R22, R23; spec/42_alu.md R182). Each is 0 or 1.
-/

namespace Sys2Proof.Machine

/-- A truth value as a flag byte. -/
def flagOf (c : Bool) : Byte := if c then 1 else 0

/-- R166, R182: the carry of 8XY4, 1 exactly when the true sum exceeds 255. -/
def carryFlag (a b : Byte) : Byte := flagOf (decide (255 < a.toNat + b.toNat))

/-- R167, R169, R182: the complement of the borrow of a - b, 0 exactly when a < b. -/
def notBorrowFlag (a b : Byte) : Byte := flagOf (!decide (a.toNat < b.toNat))

/-- R168: bit 0, which a shift right by one shifts out. -/
def lowBitFlag (a : Byte) : Byte := flagOf (a.getLsbD 0)

/-- R170: bit 7, which a shift left by one shifts out. -/
def highBitFlag (a : Byte) : Byte := flagOf (a.getLsbD 7)

/-- R113: whether any toggled pixel went from on to off. -/
def collisionFlag (c : Bool) : Byte := flagOf c

end Sys2Proof.Machine
end

