-- ==== Sys2Proof/Config.lean ====
section
/-!
DEFINITION. What is fixed for the machine (the parameter table of spec/00_scope.md R5) and the one free value.
The font bytes, a parameter too, are in Sys2Proof/Machine/Font.lean.
-/

namespace Sys2Proof

/-- MEM_SIZE: addresses 0x000..0xFFF exist (R5, R50). -/
@[simp] abbrev Config.memSize : Nat := 4096

/-- START_ADDR: programs are loaded and begin execution here (R5, R52). -/
@[simp] abbrev Config.startAddr : Nat := 0x200

/-- ROM_CAPACITY: the longest ROM that LOAD accepts (R5, R73). -/
@[simp] abbrev Config.romCapacity : Nat := 3584

/-- GLYPH_COUNT x GLYPH_SIZE: the bytes of the font table, at FONT_BASE = 0x000 (R5, R55). -/
@[simp] abbrev Config.fontSize : Nat := 80

/-- The random draw `rand8()` (R176): draw number k of the machine's life. It has no body, so nothing can be proved of
its value but that it is a byte: every byte is possible and no two draws are related. (Log entry 2, DESIGN CHOICE.) -/
opaque Config.rand8 : Nat → Byte

end Sys2Proof
end

