-- ==== Sys2Proof/Syntax.lean ====
section
/-!
DEFINITION. The instructions, one constructor per row of spec/opcode_table.json in the table's order (R86), the fields a
word splits into (R81), and the commands of the host interface (R260).
-/

namespace Sys2Proof

/-- The 34 instructions (R85, R86). Register fields are indices into V, so every value is admitted (R21); the immediates
nn and nnn and the row count n are unsigned (R82). SHR and SHL carry the field y that they do not read (R89). -/
inductive Instr where
  /-- 00E0 (R110) -/
  | cls
  /-- 00EE (R140) -/
  | ret
  /-- 1NNN (R141) -/
  | jp (nnn : Addr12)
  /-- 2NNN (R142) -/
  | call (nnn : Addr12)
  /-- 3XNN (R151) -/
  | seImm (x : RegIdx) (nn : Byte)
  /-- 4XNN (R152) -/
  | sneImm (x : RegIdx) (nn : Byte)
  /-- 5XY0 (R153) -/
  | seReg (x y : RegIdx)
  /-- 6XNN (R160) -/
  | ldImm (x : RegIdx) (nn : Byte)
  /-- 7XNN (R161) -/
  | addImm (x : RegIdx) (nn : Byte)
  /-- 8XY0 (R162) -/
  | ldReg (x y : RegIdx)
  /-- 8XY1 (R163) -/
  | orReg (x y : RegIdx)
  /-- 8XY2 (R164) -/
  | andReg (x y : RegIdx)
  /-- 8XY3 (R165) -/
  | xorReg (x y : RegIdx)
  /-- 8XY4 (R166) -/
  | addReg (x y : RegIdx)
  /-- 8XY5 (R167) -/
  | sub (x y : RegIdx)
  /-- 8XY6 (R168) -/
  | shr (x y : RegIdx)
  /-- 8XY7 (R169) -/
  | subn (x y : RegIdx)
  /-- 8XYE (R170) -/
  | shl (x y : RegIdx)
  /-- 9XY0 (R154) -/
  | sneReg (x y : RegIdx)
  /-- ANNN (R190) -/
  | ldI (nnn : Addr12)
  /-- BNNN (R143) -/
  | jpV0 (nnn : Addr12)
  /-- CXNN (R175) -/
  | rnd (x : RegIdx) (nn : Byte)
  /-- DXYN (R111) -/
  | drw (x y : RegIdx) (n : RowCount)
  /-- EX9E (R211) -/
  | skp (x : RegIdx)
  /-- EXA1 (R212) -/
  | sknp (x : RegIdx)
  /-- FX07 (R215) -/
  | ldVDt (x : RegIdx)
  /-- FX0A (R213) -/
  | ldK (x : RegIdx)
  /-- FX15 (R216) -/
  | ldDtV (x : RegIdx)
  /-- FX18 (R217) -/
  | ldStV (x : RegIdx)
  /-- FX1E (R191) -/
  | addI (x : RegIdx)
  /-- FX29 (R192) -/
  | ldF (x : RegIdx)
  /-- FX33 (R194) -/
  | ldB (x : RegIdx)
  /-- FX55 (R195) -/
  | ldMemV (x : RegIdx)
  /-- FX65 (R196) -/
  | ldVMem (x : RegIdx)
  deriving DecidableEq, Repr

/-- An instruction's mnemonic as spec/opcode_table.json spells it; a label, the encoding is normative (R91). -/
def Instr.mnemonic : Instr → String
  | .cls => "CLS"
  | .ret => "RET"
  | .jp _ => "JP"
  | .call _ => "CALL"
  | .seImm _ _ => "SE_IMM"
  | .sneImm _ _ => "SNE_IMM"
  | .seReg _ _ => "SE_REG"
  | .ldImm _ _ => "LD_IMM"
  | .addImm _ _ => "ADD_IMM"
  | .ldReg _ _ => "LD_REG"
  | .orReg _ _ => "OR"
  | .andReg _ _ => "AND"
  | .xorReg _ _ => "XOR"
  | .addReg _ _ => "ADD_REG"
  | .sub _ _ => "SUB"
  | .shr _ _ => "SHR"
  | .subn _ _ => "SUBN"
  | .shl _ _ => "SHL"
  | .sneReg _ _ => "SNE_REG"
  | .ldI _ => "LD_I"
  | .jpV0 _ => "JP_V0"
  | .rnd _ _ => "RND"
  | .drw _ _ _ => "DRW"
  | .skp _ => "SKP"
  | .sknp _ => "SKNP"
  | .ldVDt _ => "LD_V_DT"
  | .ldK _ => "LD_K"
  | .ldDtV _ => "LD_DT_V"
  | .ldStV _ => "LD_ST_V"
  | .addI _ => "ADD_I"
  | .ldF _ => "LD_F"
  | .ldB _ => "LD_B"
  | .ldMemV _ => "LD_MEM_V"
  | .ldVMem _ => "LD_V_MEM"

/-- The fields of an opcode word (R81). They overlap: nn = y * 16 + n and nnn = x * 256 + nn. -/
structure Fields where
  /-- w[15:12], the major family -/
  n1 : Fin 16
  /-- w[11:8] -/
  x : RegIdx
  /-- w[7:4] -/
  y : RegIdx
  /-- w[3:0] -/
  n : RowCount
  /-- w[7:0] -/
  nn : Byte
  /-- w[11:0] -/
  nnn : Addr12
  deriving DecidableEq, Repr

/-- The host's commands (R260). A key index is written as a plain number, since the host may send one that names no
key (R264). -/
inductive Command where
  /-- LOAD(rom) (R73) -/
  | load (rom : List Byte)
  /-- STEP (R92) -/
  | step
  /-- TICK (R250) -/
  | tick
  /-- KEY(k, pressed) (R264) -/
  | key (k : Nat) (pressed : Bool)
  /-- READ_DISPLAY (R265) -/
  | readDisplay
  /-- RESET (R281) -/
  | reset
  deriving DecidableEq, Repr

end Sys2Proof
end

