-- ==== Sys2Proof/WellFormed.lean ====
section
/-!
DEFINITION. The checks on what can be written wrongly.
An instruction's operands carry their bounds in their types (a 4-bit field always names a register, R21; every value of an
immediate is admitted, R82), so every term of Instr is well-formed and the check on instructions is the one on the
overlapping fields a decoder works with.
The host's inputs are checked here too: a key index and the length of a ROM.
-/

namespace Sys2Proof

/-- R81: nn agrees with the fields y and n it overlaps. -/
def Fields.nnAgrees (f : Fields) : Bool := f.nn.toNat == f.y.val * 16 + f.n.val

/-- R81: nnn agrees with the fields x and nn it overlaps. -/
def Fields.nnnAgrees (f : Fields) : Bool := f.nnn.toNat == f.x.val * 256 + f.nn.toNat

/-- The fields are those of some opcode word (R81). -/
def Fields.wellFormed (f : Fields) : Bool := f.nnAgrees && f.nnnAgrees

/-- R264: KEY admits the key indices 0..15 only; every other command is admitted with every input. -/
def Command.wellFormed : Command → Bool
  | .key k _ => decide (k < 16)
  | .load _ | .step | .tick | .readDisplay | .reset => true

/-- R73: the ROM fits into 0x200..0xFFF. (A longer ROM is an admitted input of LOAD, answered by CapacityError.) -/
def romFits (rom : List Byte) : Bool := decide (rom.length ≤ Config.romCapacity)

end Sys2Proof
end

