-- ==== Sys2Proof/Decode.lean ====
section
/-!
DEFINITION. Decoding and encoding (spec/30_encoding.md).
Every instruction is one 16-bit word, high byte first (R58, R80). The decoder splits a word into its fields (R81) and
selects the row of the opcode table whose fixed bits match (R95); a word that matches no row is rejected by name (R87).
-/

namespace Sys2Proof

/-! ## Bytes, words and fields -/

/-- R58: the byte at the lower address is bits 15..8 of the word. -/
def wordOfBytes (hi lo : Byte) : Word := hi ++ lo

/-- Bits 15..8 of a word, the byte stored at the lower address (R58). -/
def highByte (w : Word) : Byte := w.extractLsb' 8 8

/-- Bits 7..0 of a word, the byte stored at the higher address (R58). -/
def lowByte (w : Word) : Byte := w.extractLsb' 0 8

/-- The four bits of w from bit lo up, as an index (R81). -/
def nibbleAt (w : Word) (lo : Nat) : Fin 16 := (w.extractLsb' lo 4).toFin

/-- Four bits from an index. -/
def nibble (i : Fin 16) : BitVec 4 := BitVec.ofFin i

/-- R81: the four nibbles, n1 highest, and the derived fields nn and nnn. -/
def Fields.ofWord (w : Word) : Fields where
  n1 := nibbleAt w 12
  x := nibbleAt w 8
  y := nibbleAt w 4
  n := nibbleAt w 0
  nn := w.extractLsb' 0 8
  nnn := w.extractLsb' 0 12

/-! ## The opcode table -/

/-- One row of spec/opcode_table.json: the mnemonic, the fixed bits (`pattern`, zero outside `mask`), and the instruction
that the fields of a matching word make. -/
structure OpcodeRow where
  /-- the row's label (R91) -/
  mnemonic : String
  /-- the values of the fixed bits -/
  pattern : Word
  /-- which bits are fixed -/
  mask : Word
  /-- the instruction made from the fields the row uses -/
  build : Fields → Instr

/-- The row's fixed bits match the word (R85, R95). -/
def OpcodeRow.hits (r : OpcodeRow) (w : Word) : Bool := w &&& r.mask == r.pattern

/-- Families 0 to 5 (R85). -/
def opcodeRows0to5 : List OpcodeRow :=
  [
    ⟨"CLS", 0x00E0#16, 0xFFFF#16, fun _ => .cls⟩,
    ⟨"RET", 0x00EE#16, 0xFFFF#16, fun _ => .ret⟩,
    ⟨"JP", 0x1000#16, 0xF000#16, fun f => .jp f.nnn⟩,
    ⟨"CALL", 0x2000#16, 0xF000#16, fun f => .call f.nnn⟩,
    ⟨"SE_IMM", 0x3000#16, 0xF000#16, fun f => .seImm f.x f.nn⟩,
    ⟨"SNE_IMM", 0x4000#16, 0xF000#16, fun f => .sneImm f.x f.nn⟩,
    ⟨"SE_REG", 0x5000#16, 0xF00F#16, fun f => .seReg f.x f.y⟩
  ]

/-- Families 6 and 7 (R85). -/
def opcodeRows6to7 : List OpcodeRow :=
  [
    ⟨"LD_IMM", 0x6000#16, 0xF000#16, fun f => .ldImm f.x f.nn⟩,
    ⟨"ADD_IMM", 0x7000#16, 0xF000#16, fun f => .addImm f.x f.nn⟩
  ]

/-- Family 8, selected by n4 (R85). -/
def opcodeRows8 : List OpcodeRow :=
  [
    ⟨"LD_REG", 0x8000#16, 0xF00F#16, fun f => .ldReg f.x f.y⟩,
    ⟨"OR", 0x8001#16, 0xF00F#16, fun f => .orReg f.x f.y⟩,
    ⟨"AND", 0x8002#16, 0xF00F#16, fun f => .andReg f.x f.y⟩,
    ⟨"XOR", 0x8003#16, 0xF00F#16, fun f => .xorReg f.x f.y⟩,
    ⟨"ADD_REG", 0x8004#16, 0xF00F#16, fun f => .addReg f.x f.y⟩,
    ⟨"SUB", 0x8005#16, 0xF00F#16, fun f => .sub f.x f.y⟩,
    ⟨"SHR", 0x8006#16, 0xF00F#16, fun f => .shr f.x f.y⟩,
    ⟨"SUBN", 0x8007#16, 0xF00F#16, fun f => .subn f.x f.y⟩,
    ⟨"SHL", 0x800E#16, 0xF00F#16, fun f => .shl f.x f.y⟩
  ]

/-- Families 9 and A to D (R85). -/
def opcodeRows9toD : List OpcodeRow :=
  [
    ⟨"SNE_REG", 0x9000#16, 0xF00F#16, fun f => .sneReg f.x f.y⟩,
    ⟨"LD_I", 0xA000#16, 0xF000#16, fun f => .ldI f.nnn⟩,
    ⟨"JP_V0", 0xB000#16, 0xF000#16, fun f => .jpV0 f.nnn⟩,
    ⟨"RND", 0xC000#16, 0xF000#16, fun f => .rnd f.x f.nn⟩,
    ⟨"DRW", 0xD000#16, 0xF000#16, fun f => .drw f.x f.y f.n⟩
  ]

/-- Families E and F, selected by the low byte (R85). -/
def opcodeRowsEF : List OpcodeRow :=
  [
    ⟨"SKP", 0xE09E#16, 0xF0FF#16, fun f => .skp f.x⟩,
    ⟨"SKNP", 0xE0A1#16, 0xF0FF#16, fun f => .sknp f.x⟩,
    ⟨"LD_V_DT", 0xF007#16, 0xF0FF#16, fun f => .ldVDt f.x⟩,
    ⟨"LD_K", 0xF00A#16, 0xF0FF#16, fun f => .ldK f.x⟩,
    ⟨"LD_DT_V", 0xF015#16, 0xF0FF#16, fun f => .ldDtV f.x⟩,
    ⟨"LD_ST_V", 0xF018#16, 0xF0FF#16, fun f => .ldStV f.x⟩,
    ⟨"ADD_I", 0xF01E#16, 0xF0FF#16, fun f => .addI f.x⟩,
    ⟨"LD_F", 0xF029#16, 0xF0FF#16, fun f => .ldF f.x⟩,
    ⟨"LD_B", 0xF033#16, 0xF0FF#16, fun f => .ldB f.x⟩,
    ⟨"LD_MEM_V", 0xF055#16, 0xF0FF#16, fun f => .ldMemV f.x⟩,
    ⟨"LD_V_MEM", 0xF065#16, 0xF0FF#16, fun f => .ldVMem f.x⟩
  ]

/-- The opcode table: one row per instruction, in the order of spec/opcode_table.json (R85, R86). -/
def opcodeTable : List OpcodeRow :=
  opcodeRows0to5 ++ opcodeRows6to7 ++ opcodeRows8 ++ opcodeRows9toD ++ opcodeRowsEF

/-! ## Decoding -/

/-- Why bytes do not decode. Safe: the step then raises the fatal error the spec names, or has no bytes to read. -/
inductive DecodeReject where
  /-- fewer than two bytes are left (R80); the decoder's own answer, no step can meet it (R62) -/
  | truncated
  /-- the word matches no row (R87) -/
  | unsupportedOpcode (opcode : Word)
  deriving DecidableEq, Repr

/-- R95: the instruction of the row whose fixed bits match, none if no row does. Decode reads nothing but the word. -/
def decodeWord (w : Word) : Option Instr :=
  (opcodeTable.find? fun r => r.hits w).map fun r => r.build (Fields.ofWord w)

/-- Decoding of any bytes: exactly two are consumed (R80), high byte first (R58). -/
def decode : List Byte → Except DecodeReject (Instr × List Byte)
  | hi :: lo :: rest =>
    match decodeWord (wordOfBytes hi lo) with
    | some i => .ok (i, rest)
    | none => .error (.unsupportedOpcode (wordOfBytes hi lo))
  | [_] | [] => .error .truncated

/-! ## Encoding -/

/-- The word of an instruction, written from the encodings of spec/opcode_table.json and the layouts of R83. -/
def encode : Instr → Word
  | .cls => 0x00E0#16
  | .ret => 0x00EE#16
  | .jp nnn => 0x1#4 ++ nnn
  | .call nnn => 0x2#4 ++ nnn
  | .seImm x nn => 0x3#4 ++ nibble x ++ nn
  | .sneImm x nn => 0x4#4 ++ nibble x ++ nn
  | .seReg x y => 0x5#4 ++ nibble x ++ nibble y ++ 0x0#4
  | .ldImm x nn => 0x6#4 ++ nibble x ++ nn
  | .addImm x nn => 0x7#4 ++ nibble x ++ nn
  | .ldReg x y => 0x8#4 ++ nibble x ++ nibble y ++ 0x0#4
  | .orReg x y => 0x8#4 ++ nibble x ++ nibble y ++ 0x1#4
  | .andReg x y => 0x8#4 ++ nibble x ++ nibble y ++ 0x2#4
  | .xorReg x y => 0x8#4 ++ nibble x ++ nibble y ++ 0x3#4
  | .addReg x y => 0x8#4 ++ nibble x ++ nibble y ++ 0x4#4
  | .sub x y => 0x8#4 ++ nibble x ++ nibble y ++ 0x5#4
  | .shr x y => 0x8#4 ++ nibble x ++ nibble y ++ 0x6#4
  | .subn x y => 0x8#4 ++ nibble x ++ nibble y ++ 0x7#4
  | .shl x y => 0x8#4 ++ nibble x ++ nibble y ++ 0xE#4
  | .sneReg x y => 0x9#4 ++ nibble x ++ nibble y ++ 0x0#4
  | .ldI nnn => 0xA#4 ++ nnn
  | .jpV0 nnn => 0xB#4 ++ nnn
  | .rnd x nn => 0xC#4 ++ nibble x ++ nn
  | .drw x y n => 0xD#4 ++ nibble x ++ nibble y ++ nibble n
  | .skp x => 0xE#4 ++ nibble x ++ 0x9E#8
  | .sknp x => 0xE#4 ++ nibble x ++ 0xA1#8
  | .ldVDt x => 0xF#4 ++ nibble x ++ 0x07#8
  | .ldK x => 0xF#4 ++ nibble x ++ 0x0A#8
  | .ldDtV x => 0xF#4 ++ nibble x ++ 0x15#8
  | .ldStV x => 0xF#4 ++ nibble x ++ 0x18#8
  | .addI x => 0xF#4 ++ nibble x ++ 0x1E#8
  | .ldF x => 0xF#4 ++ nibble x ++ 0x29#8
  | .ldB x => 0xF#4 ++ nibble x ++ 0x33#8
  | .ldMemV x => 0xF#4 ++ nibble x ++ 0x55#8
  | .ldVMem x => 0xF#4 ++ nibble x ++ 0x65#8

/-- The two bytes of a word in memory order (R58). -/
def wordBytes (w : Word) : List Byte := [highByte w, lowByte w]

/-- The bytes of an instruction in a program (R58, R80). -/
def encodeBytes (i : Instr) : List Byte := wordBytes (encode i)

/-- The instruction word among the low nbits of w, numbered as spec/opcode_table.json numbers them: bits 15..0 of the first
word, which is the whole instruction (R80); bits at nbits and above are zero. -/
def tableWord (nbits w : Nat) : Word := BitVec.ofNat 16 (w % 2 ^ nbits)

/-- What the decoder reads from the instruction whose bits are w: its bytes are laid out as in memory and decoded. -/
def decodeTableWord (nbits w : Nat) : Option Instr :=
  match decode (wordBytes (tableWord nbits w)) with
  | .ok (i, _) => some i
  | .error _ => none

end Sys2Proof
end

