-- ==== Sys2Proof/Machine/Memory.lean ====
section
/-!
DEFINITION. The memory (spec/20_memory.md): bytes at the addresses 0..4095, as a list of cells in one canonical form.
A cell is listed when its byte differs from the one that address holds after reset.
-/

namespace Sys2Proof.Machine

/-- The bytes that differ from the reset contents, by rising address. -/
abbrev Memory := List Host.Cell

/-- R57: what an address holds after reset and so reads as while it is not listed: FONT at 0x000..0x04F, zero elsewhere. -/
def Memory.unlisted (a : Nat) : Byte := fontBytes.getD a 0

/-- R67: the byte at an address, the one most recently written or the reset contents. -/
def Memory.read : Memory → Nat → Byte
  | [], a => Memory.unlisted a
  | (b, v) :: m, a => if a = b then v else Memory.read m a

/-- A byte is written at an address; the canonical form is kept, so writing the reset contents removes the cell. -/
def Memory.write : Memory → Nat → Byte → Memory
  | [], a, v => if v = Memory.unlisted a then [] else [(a, v)]
  | (b, w) :: m, a, v =>
    if a < b then (if v = Memory.unlisted a then (b, w) :: m else (a, v) :: (b, w) :: m)
    else if a = b then (if v = Memory.unlisted a then m else (a, v) :: m)
    else (b, w) :: Memory.write m a v

/-- The cells are at addresses from lo up, strictly rising and below 4096, and none holds what its address reads as while
unlisted. -/
def Memory.canonicalFrom : Nat → Memory → Bool
  | _, [] => true
  | lo, (a, v) :: m =>
    decide (lo ≤ a) && decide (a < Config.memSize) && v != Memory.unlisted a && Memory.canonicalFrom (a + 1) m

/-- The canonical form: two memories in it that read alike are equal data. -/
def Memory.wf (m : Memory) : Bool := Memory.canonicalFrom 0 m

/-- The n bytes from an address up (R64). -/
def Memory.readBytes (m : Memory) (base : Nat) : Nat → List Byte
  | 0 => []
  | n + 1 => m.read base :: Memory.readBytes m (base + 1) n

/-- The bytes of a list are written from an address up, in order (R64). -/
def Memory.writeBytes (m : Memory) (base : Nat) : List Byte → Memory
  | [] => m
  | v :: vs => Memory.writeBytes (m.write base v) (base + 1) vs

end Sys2Proof.Machine
end

