-- ==== Sys2Proof/Machine/State.lean ====
section
/-!
DEFINITION. The machine's state (spec/10_state.md R20 to R38), the fatal errors (spec/60_exceptions.md R230) and the state
after construction.
-/

namespace Sys2Proof.Machine

/-- The fatal errors with the info each records (R230). Raising one is a NEXT state: R233 gives the state after it whole. -/
inductive FatalError where
  /-- code 2, decode of a word no row matches (R95); info: the opcode -/
  | unsupportedOpcode (opcode : Word)
  /-- code 3, 2NNN with SP = 16 (R131); info: pc0 -/
  | stackOverflow (pc0 : Word)
  /-- code 4, 00EE with SP = 0 (R132); info: pc0 -/
  | stackUnderflow (pc0 : Word)
  /-- code 5, fetch with pc0 + 1 >= 4096 (R62); info: pc0 -/
  | pcOutOfRange (pc0 : Word)
  /-- code 6, DXYN, FX33, FX55 or FX65 reaching an address >= 4096 (R66); info: the lowest such address -/
  | memOutOfRange (address : Nat)
  /-- code 7, EX9E or EXA1 with V[x] >= 16 (R210); info: V[x] -/
  | keyIndexOutOfRange (v : Byte)
  deriving DecidableEq, Repr

/-- The status latch (R34): a fatal error sets it, only RESET clears it (R238). -/
inductive Status where
  /-- the next STEP executes an instruction -/
  | running
  /-- a fatal error has been raised; STEP changes nothing (R234) -/
  | halted (e : FatalError)
  deriving DecidableEq, Repr

/-- Reasons for a step to stop without a next state. There is NONE: every fatal error of the spec has a next state (R233),
and so has STEP while Halted (R234). No one raises a fault; safe, since the spec gives every case its state (log entry 3). -/
inductive Fault where
  deriving DecidableEq, Repr

/-- Reasons to refuse. -/
inductive Refusal where
  /-- An instruction whose meaning is not written yet; raised by exec's refused arms only, and there is none left. Safe: the
  run stops. -/
  | notModelled (mnemonic : String)
  /-- The host command KEY with an index k >= 16, which is not an admitted input (R264); raised by Machine.perform, never by
  a step. Safe: no claim covers a host that sends it. -/
  | keyIndexNotAdmitted (k : Nat)
  deriving DecidableEq, Repr

/-- The framebuffer: 32 rows of 64 pixels, true meaning on, as fb[row][column] (R33). -/
abbrev Framebuffer := Vector (Vector Bool 64) 32

/-- The whole state of the core (R20), and the model's own draw counter. -/
structure State where
  /-- 4096 bytes, by their difference from the reset contents (R50, R57) -/
  mem : Memory
  /-- V0..VF; V[15] is the flag VF (R21, R22) -/
  V : Vector Byte 16
  /-- the index register (R26) -/
  I : Word
  /-- the program counter (R27) -/
  pc : Word
  /-- the stack pointer, 0..16, how many slots are occupied (R28) -/
  SP : Fin 17
  /-- the call stack's slots (R29) -/
  stack : Vector Word 16
  /-- the delay timer (R30) -/
  DT : Byte
  /-- the sound timer (R31) -/
  ST : Byte
  /-- the keypad, true meaning pressed (R32) -/
  key : Vector Bool 16
  /-- the framebuffer (R33) -/
  fb : Framebuffer
  /-- Running or Halted(error, info) (R34) -/
  status : Status
  /-- the MODEL's own field: how many random bytes have been drawn, which selects the next free value `Config.rand8 draws`
  (R176; log entry 2) -/
  draws : Nat
  deriving DecidableEq, Repr

/-- The state after construction (R38, R280): memory as after reset, everything zero, off or up, pc at the start address,
Running. The draw counter's 0 is a DESIGN CHOICE (log entry 2). -/
def State.reset : State where
  mem := []
  V := Vector.replicate 16 0
  I := 0
  pc := BitVec.ofNat 16 Config.startAddr
  SP := 0
  stack := Vector.replicate 16 0
  DT := 0
  ST := 0
  key := Vector.replicate 16 false
  fb := Vector.replicate 32 (Vector.replicate 64 false)
  status := .running
  draws := 0

end Sys2Proof.Machine
end

