-- ==== Sys2Proof/Machine/Ops.lean ====
section
/-!
DEFINITION. The named operations over registers, memory, the stack, the status latch and pc.
Every meaning is written over these and over Operands.lean, Flags.lean and Display.lean's drawing.
-/

namespace Sys2Proof.Machine

/-- What a step answers. -/
abbrev Result := Host.Outcome State Fault Refusal

/-! ## Registers -/

/-- Register V[x] (R8). -/
def State.readV (s : State) (x : RegIdx) : Byte := s.V[x.val]

/-- `V[x] <- v` (R8); no register is hardwired (R21). -/
def State.writeV (s : State) (x : RegIdx) (v : Byte) : State := { s with V := s.V.set x.val v }

/-- `VF <- f` (R8, R22). -/
def State.writeVF (s : State) (f : Byte) : State := s.writeV 15 f

/-- `V[x] <- v`, then `VF <- f`: the flag is written last, so it is what VF holds when x = 15 (R9). -/
def State.writeVWithFlag (s : State) (x : RegIdx) (v f : Byte) : State := (s.writeV x v).writeVF f

/-- `I <- a` (R8). -/
def State.setI (s : State) (a : Word) : State := { s with I := a }

/-- `pc <- a` (R8). -/
def State.setPc (s : State) (a : Word) : State := { s with pc := a }

/-- `DT <- v` (R8). -/
def State.setDT (s : State) (v : Byte) : State := { s with DT := v }

/-- `ST <- v` (R8). -/
def State.setST (s : State) (v : Byte) : State := { s with ST := v }

/-- The framebuffer is replaced. -/
def State.setFb (s : State) (fb : Framebuffer) : State := { s with fb := fb }

/-- The memory is replaced. -/
def State.setMem (s : State) (m : Memory) : State := { s with mem := m }

/-- The status latch is written. -/
def State.setStatus (s : State) (st : Status) : State := { s with status := st }

/-- Key k's state is written; an index past the keypad writes nothing (R264 admits 0..15 only). -/
def State.setKey (s : State) (k : Nat) (pressed : Bool) : State := { s with key := s.key.setIfInBounds k pressed }

/-- One more random byte has been drawn (R176). -/
def State.countDraw (s : State) : State := { s with draws := s.draws + 1 }

/-! ## The program counter -/

/-- R94: `pc <- pc0 + 2`, before the instruction executes. (After a successful fetch the sum does not wrap.) -/
def State.advance (s : State) : State := s.setPc (s.pc + 2)

/-- R150: a taken skip advances pc by one more instruction. -/
def State.skipIf (s : State) (c : Bool) : State := if c then s.setPc (s.pc + 2) else s

/-! ## Raising a fatal error, and the way out of it -/

/-- R233: everything is as at the start of the step, pc included, but the status, which is Halted(e, info). This is the one
place where an error is raised, on the state in which the step began. -/
def State.raise (s : State) (e : FatalError) : Result := .next (s.setStatus (.halted e))

/-- The outcome of an instruction that may raise: its new state, or the error raised on the state before it (R232, R233). -/
def State.finish (s : State) : Except FatalError State → Result
  | .ok t => .next t
  | .error e => s.raise e

/-- R234: STEP while Halted changes no state. -/
def State.stepHalted (s : State) : Result := .next s

/-- RESET (R281, R282), the only way out of Halted (R238): every element takes its reset value. The random source is no
part of the state and is not reset (R281), so the draw counter stays. -/
def State.resetByHost (s : State) : State := { State.reset with draws := s.draws }

/-- R230: the code of a fatal error. -/
def FatalError.code : FatalError → Nat
  | .unsupportedOpcode _ => 2
  | .stackOverflow _ => 3
  | .stackUnderflow _ => 4
  | .pcOutOfRange _ => 5
  | .memOutOfRange _ => 6
  | .keyIndexOutOfRange _ => 7

/-- R230: the info a fatal error records, as a number. -/
def FatalError.info : FatalError → Nat
  | .unsupportedOpcode w => w.toNat
  | .stackOverflow a => a.toNat
  | .stackUnderflow a => a.toNat
  | .pcOutOfRange a => a.toNat
  | .memOutOfRange a => a
  | .keyIndexOutOfRange v => v.toNat

/-! ## Memory -/

/-- R60, R61, R66: the whole range of len bytes from base up is checked before the first access; if it reaches 4096 the
error names the lowest such address. Addresses are natural numbers and never wrap (R59). -/
def checkRange (base len : Nat) : Option FatalError :=
  if 0 < len ∧ Config.memSize ≤ base + len - 1 then some (.memOutOfRange (max base Config.memSize)) else none

/-- R58, R62: the word at pc, the byte at the lower address being bits 15..8; raises PcOutOfRange when pc + 1 >= 4096. Any
pc is taken, odd ones too (R63). -/
def State.fetchWord (s : State) : Except FatalError Word :=
  if Config.memSize ≤ s.pc.toNat + 1 then .error (.pcOutOfRange s.pc)
  else .ok (wordOfBytes (s.mem.read s.pc.toNat) (s.mem.read (s.pc.toNat + 1)))

/-- R93, R95: fetch, then decode; raises UnsupportedOpcode when no row matches. -/
def State.fetchInstr (s : State) : Except FatalError Instr :=
  match s.fetchWord with
  | .error e => .error e
  | .ok w =>
    match decodeWord w with
    | some i => .ok i
    | none => .error (.unsupportedOpcode w)

/-- The state in which the next fetch finds the word w: it is Running, pc is where it was, or at the start address if no
word can be fetched at it, and the word's bytes are there, high byte first (R58, R62, R92). -/
def State.placeWord (s : State) (w : Word) : State :=
  let a : Word := if Config.memSize ≤ s.pc.toNat + 1 then BitVec.ofNat 16 Config.startAddr else s.pc
  ((s.setStatus .running).setPc a).setMem (s.mem.writeBytes a.toNat (wordBytes w))

/-! ## The call stack -/

/-- R131: push writes at the pointer, then increments; a full stack raises StackOverflow(pc0). -/
def State.push (s : State) (pc0 a : Word) : Except FatalError State :=
  if h : s.SP.val < 16 then
    .ok { s with stack := s.stack.set s.SP.val a, SP := ⟨s.SP.val + 1, by omega⟩ }
  else .error (.stackOverflow pc0)

/-- R132: pop decrements, then reads; it does not clear the slot. An empty stack raises StackUnderflow(pc0). -/
def State.pop (s : State) (pc0 : Word) : Except FatalError (Word × State) :=
  if h : 0 < s.SP.val then
    .ok (s.stack[s.SP.val - 1], { s with SP := ⟨s.SP.val - 1, by omega⟩ })
  else .error (.stackUnderflow pc0)

end Sys2Proof.Machine
end

