-- ==== Sys2Proof/Machine/Operands.lean ====
section
/-!
DEFINITION. The operand forms: immediates widened without sign (R82), the key named by a register (R210), the keypad scan of
FX0A (R213), the sprite's origin (R112), and the register block of FX55 and FX65 (R195, R196).
-/

namespace Sys2Proof.Machine

/-- `zext_16` of a 12-bit immediate (R7, R82). -/
def zextAddr (nnn : Addr12) : Word := nnn.setWidth 16

/-- `zext_16` of a byte (R7). -/
def zextByte (v : Byte) : Word := v.setWidth 16

/-- R210: KeyAt(v), the key whose index is a register's value; raises KeyIndexOutOfRange(v) when v >= 16. -/
def State.keyAt (s : State) (v : Byte) : Except FatalError Bool :=
  if h : v.toNat < 16 then .ok s.key[v.toNat] else .error (.keyIndexOutOfRange v)

/-- R213: `min { k in 0..15 : key[k] }`, none if no key is pressed. -/
def State.lowestPressed (s : State) : Option Nat := s.key.toList.findIdx? id

/-- R193: the effective address of the first byte of an access through I, a natural number that never wraps (R59). -/
def State.base (s : State) : Nat := s.I.toNat

/-- R112: the sprite's origin column `V[x] mod 64`. -/
def State.originCol (s : State) (x : RegIdx) : Nat := (s.readV x).toNat % 64

/-- R112: the sprite's origin row `V[y] mod 32`. -/
def State.originRow (s : State) (y : RegIdx) : Nat := (s.readV y).toNat % 32

/-- How many registers the block V[0]..V[x] has; x is included (R195, R196). -/
def blockSize (x : RegIdx) : Nat := x.val + 1

/-- The values of the block V[0]..V[x], in order (R195). -/
def State.block (s : State) (x : RegIdx) : List Byte := s.V.toList.take (blockSize x)

/-- R196: `V[k] <- MemRead(base + k, 1)` for the first n registers, in order. -/
def loadRegs (m : Memory) (base : Nat) : Nat → Vector Byte 16 → Vector Byte 16
  | 0, v => v
  | n + 1, v => (loadRegs m base n v).setIfInBounds n (m.read (base + n))

/-- The block V[0]..V[x] is loaded from memory at I (R196). -/
def State.loadBlock (s : State) (x : RegIdx) : State := { s with V := loadRegs s.mem s.base (blockSize x) s.V }

/-- R194: the hundreds, tens and ones digits of a byte, in that order. -/
def bcdDigits (v : Byte) : List Byte := [v / 100, v / 10 % 10, v % 10]

end Sys2Proof.Machine
end

