-- ==== Sys2Proof/Machine/Alu.lean ====
section
/-!
DEFINITION. Register and arithmetic instructions: 6XNN, 7XNN, 8XY0..8XYE, CXNN (spec/42_alu.md).
None of them can raise. Operands are read before any write and VF is written last (R9); sums and differences wrap at 8 bits
(R180).
-/

namespace Sys2Proof.Machine

/-- R160: 6XNN, `V[x] <- nn`. -/
def execLdImm (x : RegIdx) (nn : Byte) (s : State) : Result := .next (s.advance.writeV x nn)

/-- R161: 7XNN, `V[x] <- (V[x] + nn) mod 256`, no flag. -/
def execAddImm (x : RegIdx) (nn : Byte) (s : State) : Result := .next (s.advance.writeV x (s.readV x + nn))

/-- R162: 8XY0, `V[x] <- V[y]`. -/
def execLdReg (x y : RegIdx) (s : State) : Result := .next (s.advance.writeV x (s.readV y))

/-- R163: 8XY1, `V[x] <- V[x] OR V[y]`, no flag. -/
def execOr (x y : RegIdx) (s : State) : Result := .next (s.advance.writeV x (s.readV x ||| s.readV y))

/-- R164: 8XY2, `V[x] <- V[x] AND V[y]`, no flag. -/
def execAnd (x y : RegIdx) (s : State) : Result := .next (s.advance.writeV x (s.readV x &&& s.readV y))

/-- R165: 8XY3, `V[x] <- V[x] XOR V[y]`, no flag. -/
def execXor (x y : RegIdx) (s : State) : Result := .next (s.advance.writeV x (s.readV x ^^^ s.readV y))

/-- R166: 8XY4, the sum, VF the carry. -/
def execAddReg (x y : RegIdx) (s : State) : Result :=
  .next (s.advance.writeVWithFlag x (s.readV x + s.readV y) (carryFlag (s.readV x) (s.readV y)))

/-- R167: 8XY5, V[x] - V[y], VF the complement of the borrow. -/
def execSub (x y : RegIdx) (s : State) : Result :=
  .next (s.advance.writeVWithFlag x (s.readV x - s.readV y) (notBorrowFlag (s.readV x) (s.readV y)))

/-- R168: 8XY6, V[x] shifted right by one, VF the bit shifted out; V[y] is not read (R89). -/
def execShr (x _y : RegIdx) (s : State) : Result :=
  .next (s.advance.writeVWithFlag x (s.readV x >>> 1) (lowBitFlag (s.readV x)))

/-- R169: 8XY7, V[y] - V[x], VF the complement of the borrow. -/
def execSubn (x y : RegIdx) (s : State) : Result :=
  .next (s.advance.writeVWithFlag x (s.readV y - s.readV x) (notBorrowFlag (s.readV y) (s.readV x)))

/-- R170: 8XYE, V[x] shifted left by one, VF the bit shifted out; V[y] is not read (R89). -/
def execShl (x _y : RegIdx) (s : State) : Result :=
  .next (s.advance.writeVWithFlag x (s.readV x <<< 1) (highBitFlag (s.readV x)))

/-- R175 for a given draw r: `V[x] <- r AND nn`, one draw taken. -/
def rndWithDraw (r : Byte) (x : RegIdx) (nn : Byte) (s : State) : Result :=
  .next (s.advance.countDraw.writeV x (r &&& nn))

/-- R175, R176: CXNN, with the machine's next draw, a free value. -/
def execRnd (x : RegIdx) (nn : Byte) (s : State) : Result := rndWithDraw (Config.rand8 s.draws) x nn s

end Sys2Proof.Machine
end

