-- ==== Sys2Proof/Machine/Control.lean ====
section
/-!
DEFINITION. Stack and control transfer: 00EE, 1NNN, 2NNN, BNNN and the skips (spec/41_control_flow.md).
Targets are never checked when they are written to pc (R155).
-/

namespace Sys2Proof.Machine

/-- R140: 00EE, return: `pc <- Pop()`. -/
def execRet (s : State) : Result :=
  s.finish ((s.advance.pop s.pc).map fun r => r.2.setPc r.1)

/-- R141: 1NNN, jump. -/
def execJp (nnn : Addr12) (s : State) : Result := .next (s.advance.setPc (zextAddr nnn))

/-- R142: 2NNN, call: push pc0 + 2, then jump. -/
def execCall (nnn : Addr12) (s : State) : Result :=
  s.finish ((s.advance.push s.pc s.advance.pc).map fun t => t.setPc (zextAddr nnn))

/-- R143: BNNN, jump to V[0] + nnn, not reduced modulo 4096. -/
def execJpV0 (nnn : Addr12) (s : State) : Result :=
  .next (s.advance.setPc (zextByte (s.readV 0) + zextAddr nnn))

/-- R151: 3XNN, skip if V[x] = nn. -/
def execSeImm (x : RegIdx) (nn : Byte) (s : State) : Result := .next (s.advance.skipIf (s.readV x == nn))

/-- R152: 4XNN, skip if V[x] != nn. -/
def execSneImm (x : RegIdx) (nn : Byte) (s : State) : Result := .next (s.advance.skipIf (s.readV x != nn))

/-- R153: 5XY0, skip if V[x] = V[y]. -/
def execSeReg (x y : RegIdx) (s : State) : Result := .next (s.advance.skipIf (s.readV x == s.readV y))

/-- R154: 9XY0, skip if V[x] != V[y]. -/
def execSneReg (x y : RegIdx) (s : State) : Result := .next (s.advance.skipIf (s.readV x != s.readV y))

end Sys2Proof.Machine
end

