-- ==== Sys2Proof/Machine/Display.lean ====
section
/-!
DEFINITION. The display instructions 00E0 and DXYN (spec/40_display.md).
-/

namespace Sys2Proof.Machine

/-- Pixel fb[row][col] (R8). -/
def Framebuffer.pixel (fb : Framebuffer) (row : Fin 32) (col : Fin 64) : Bool := fb[row.val][col.val]

/-- `fb[row][col] <- b` (R8). -/
def Framebuffer.setPixel (fb : Framebuffer) (row : Fin 32) (col : Fin 64) (b : Bool) : Framebuffer :=
  fb.set row.val (fb[row.val].set col.val b)

/-- R110: every pixel off. -/
def Framebuffer.allOff : Framebuffer := Vector.replicate 32 (Vector.replicate 64 false)

/-- R112: row r of a sprite lies on framebuffer row (oy + r) mod 32. -/
def spriteRow (oy r : Nat) : Fin 32 := ⟨(oy + r) % 32, Nat.mod_lt _ (by decide)⟩

/-- R112: bit 7 - k of a sprite's row lies on column (ox + k) mod 64. -/
def spriteCol (ox k : Nat) : Fin 64 := ⟨(ox + k) % 64, Nat.mod_lt _ (by decide)⟩

/-- A drawing in progress: the framebuffer, and whether a pixel has gone from on to off so far (R113). -/
abbrev Canvas := Framebuffer × Bool

/-- One sprite bit: a set bit toggles its pixel and accumulates the collision, a clear bit changes nothing (R111, R113). -/
def drawBit (row : Fin 32) (col : Fin 64) (bit : Bool) (c : Canvas) : Canvas :=
  if bit then (Framebuffer.setPixel c.1 row col (!Framebuffer.pixel c.1 row col), c.2 || Framebuffer.pixel c.1 row col) else c

/-- The first k bits of a sprite's row, from the left: bit 7 - k of the byte is the k-th from the left (R111). -/
def drawRow (row : Fin 32) (ox : Nat) (b : Byte) : Nat → Canvas → Canvas
  | 0, c => c
  | k + 1, c => drawBit row (spriteCol ox k) (b.getLsbD (7 - k)) (drawRow row ox b k c)

/-- The rows of a sprite, the first of them being row r (R111). -/
def drawRows (oy ox : Nat) : Nat → List Byte → Canvas → Canvas
  | _, [], c => c
  | r, b :: bs, c => drawRows oy ox (r + 1) bs (drawRow (spriteRow oy r) ox b 8 c)

/-- The sprite of DXYN: the n bytes of memory from I up (R111). -/
def State.sprite (s : State) (n : RowCount) : List Byte := s.mem.readBytes s.base n.val

/-- The drawing of a sprite at (V[x] mod 64, V[y] mod 32), on the framebuffer with no collision yet (R111, R112). -/
def State.drawn (s : State) (x y : RegIdx) (n : RowCount) : Canvas :=
  drawRows (s.originRow y) (s.originCol x) 0 (s.sprite n) (s.fb, false)

/-- R110: 00E0, clear the display. -/
def execCls (s : State) : Result := .next (s.advance.setFb Framebuffer.allOff)

/-- R111 to R117: DXYN, draw a sprite of n rows by XOR; VF is the collision flag, written last. n = 0 reads no memory and
cannot raise (R114); otherwise the whole sprite is range-checked first (R117). -/
def execDrw (x y : RegIdx) (n : RowCount) (s : State) : Result :=
  match checkRange s.base n.val with
  | some e => s.raise e
  | none => .next ((s.advance.setFb (s.drawn x y n).1).writeVF (collisionFlag (s.drawn x y n).2))

end Sys2Proof.Machine
end

