-- ==== Sys2Proof/Machine/IndexMemory.lean ====
section
/-!
DEFINITION. Index register and memory instructions: ANNN, FX1E, FX29, FX33, FX55, FX65 (spec/43_index_memory.md).
No memory instruction modifies I (R193), and the whole range is checked before the first access (R66).
-/

namespace Sys2Proof.Machine

/-- R190: ANNN, `I <- nnn`. -/
def execLdI (nnn : Addr12) (s : State) : Result := .next (s.advance.setI (zextAddr nnn))

/-- R191: FX1E, `I <- (I + V[x]) mod 65536`, no flag. -/
def execAddI (x : RegIdx) (s : State) : Result := .next (s.advance.setI (s.I + zextByte (s.readV x)))

/-- R192: FX29, `I <- V[x] * 5`, not masked. -/
def execLdF (x : RegIdx) (s : State) : Result := .next (s.advance.setI (zextByte (s.readV x) * 5))

/-- R194: FX33, the three decimal digits of V[x] are stored at I, I+1, I+2. -/
def execLdB (x : RegIdx) (s : State) : Result :=
  match checkRange s.base 3 with
  | some e => s.raise e
  | none => .next (s.advance.setMem (s.mem.writeBytes s.base (bcdDigits (s.readV x))))

/-- R195: FX55, V[0]..V[x] are stored from I up. -/
def execLdMemV (x : RegIdx) (s : State) : Result :=
  match checkRange s.base (blockSize x) with
  | some e => s.raise e
  | none => .next (s.advance.setMem (s.mem.writeBytes s.base (s.block x)))

/-- R196: FX65, V[0]..V[x] are loaded from I up. -/
def execLdVMem (x : RegIdx) (s : State) : Result :=
  match checkRange s.base (blockSize x) with
  | some e => s.raise e
  | none => .next (s.advance.loadBlock x)

end Sys2Proof.Machine
end

