-- ==== Sys2Proof/Machine/KeypadTimers.lean ====
section
/-!
DEFINITION. Keypad and timer instructions: EX9E, EXA1, FX0A, FX07, FX15, FX18 (spec/44_keypad_timers.md).
-/

namespace Sys2Proof.Machine

/-- R211: EX9E, skip if the key V[x] is pressed. -/
def execSkp (x : RegIdx) (s : State) : Result :=
  s.finish ((s.keyAt (s.readV x)).map fun pressed => s.advance.skipIf pressed)

/-- R212: EXA1, skip if the key V[x] is not pressed. -/
def execSknp (x : RegIdx) (s : State) : Result :=
  s.finish ((s.keyAt (s.readV x)).map fun pressed => s.advance.skipIf (!pressed))

/-- R213: FX0A, V[x] is the lowest pressed key; with no key pressed pc goes back to pc0, so the next step executes this
instruction again (R98). -/
def execLdK (x : RegIdx) (s : State) : Result :=
  match s.lowestPressed with
  | some k => .next (s.advance.writeV x (BitVec.ofNat 8 k))
  | none => .next (s.advance.setPc s.pc)

/-- R215: FX07, `V[x] <- DT`. -/
def execLdVDt (x : RegIdx) (s : State) : Result := .next (s.advance.writeV x s.DT)

/-- R216: FX15, `DT <- V[x]`. -/
def execLdDtV (x : RegIdx) (s : State) : Result := .next (s.advance.setDT (s.readV x))

/-- R217: FX18, `ST <- V[x]`. -/
def execLdStV (x : RegIdx) (s : State) : Result := .next (s.advance.setST (s.readV x))

end Sys2Proof.Machine
end

