-- ==== Sys2Proof/Machine/Step.lean ====
section
/-!
DEFINITION. STEP (spec/30_encoding.md R92 to R97): one fetch-decode-execute cycle, and the placing of a word where the next
fetch finds it. Everything it calls is in Ops.lean, Decode.lean and the families' files.
-/

namespace Sys2Proof.Machine

/-- R97: while Halted nothing changes (R234); otherwise fetch (R93), decode (R95) and execute (R94, R96), an error of any of
them being raised on the state in which the step began (R233). STEP's reply, Ok or the error, is read off the status of the
next state (Commands.lean). -/
def step (s : State) : Host.Outcome State Fault Refusal :=
  match s.status with
  | .halted _ => s.stepHalted
  | .running =>
    match s.fetchInstr with
    | .error e => s.raise e
    | .ok i => exec i s

/-- The state with the instruction whose bits are w (numbered as spec/opcode_table.json numbers them) where step fetches its
next instruction (log entry 5). -/
def State.withFetchWord (s : State) (nbits w : Nat) : State := s.placeWord (tableWord nbits w)

end Sys2Proof.Machine
end

