-- ==== Sys2Proof/Machine/Commands.lean ====
section
/-!
DEFINITION. The host interface (spec/60_exceptions.md R250 to R268, spec/20_memory.md R73, spec/70_reset_and_hazards.md).
Each command is one atomic transaction; a run is a sequence of them in the host's order (R261).
-/

namespace Sys2Proof.Machine

/-- What a command returns to the host (R260). -/
inductive Reply where
  /-- Ok of LOAD or STEP -/
  | ok
  /-- code 1: LOAD with a ROM longer than 3584 bytes; not fatal (R231) -/
  | capacityError
  /-- STEP met a fatal error, or the VM was Halted with it (R97) -/
  | fatal (e : FatalError)
  /-- TICK's beep output (R251) -/
  | beep (on : Bool)
  /-- READ_DISPLAY's snapshot (R265) -/
  | display (fb : Framebuffer)
  /-- KEY and RESET return nothing (R264, R281) -/
  | nothing
  deriving DecidableEq, Repr

/-- R230: the code, and the info as a number where there is one, of a reply that reports an error. -/
def Reply.error : Reply → Option (Nat × Option Nat)
  | .capacityError => some (1, none)
  | .fatal e => some (e.code, some e.info)
  | .ok | .beep _ | .display _ | .nothing => none

/-- R250: a timer decrements, floored at 0. -/
def tickDown (t : Byte) : Byte := if t = 0 then 0 else t - 1

/-- R250: TICK's effect, on both timers. -/
def State.tick (s : State) : State := (s.setDT (tickDown s.DT)).setST (tickDown s.ST)

/-- R251: TICK's beep, true exactly when ST goes from 1 to 0 on this call. -/
def State.beeps (s : State) : Bool := s.ST == 1

/-- R73: the ROM is copied verbatim from 0x200 up, and nothing else changes. -/
def State.copyRom (s : State) (rom : List Byte) : State := s.setMem (s.mem.writeBytes Config.startAddr rom)

/-- R73: LOAD: a ROM that does not fit is answered by CapacityError and changes nothing. -/
def State.load (s : State) (rom : List Byte) : Reply × State :=
  if romFits rom then (.ok, s.copyRom rom) else (.capacityError, s)

/-- R285: Loaded(rom), the launch state of a program: RESET's state with the ROM in place. -/
def State.loaded (rom : List Byte) : State := State.reset.copyRom rom

/-- STEP's reply, read off the state it leaves (R92, R97). -/
def State.stepReply (s : State) : Reply :=
  match s.status with
  | .running => .ok
  | .halted e => .fatal e

/-- R260: a command on a state: its reply and the state after it. KEY with k >= 16 is refused (R264). TICK, KEY and
READ_DISPLAY do not look at the status (R253). -/
def perform (c : Command) (s : State) : Host.Outcome (Reply × State) Fault Refusal :=
  match c with
  | .load rom => .next (s.load rom)
  | .step =>
    match step s with
    | .next t => .next (t.stepReply, t)
    | .fault f => .fault f
    | .refused r => .refused r
  | .tick => .next (.beep s.beeps, s.tick)
  | .key k pressed =>
    if Command.wellFormed (.key k pressed) then .next (.nothing, s.setKey k pressed)
    else .refused (.keyIndexNotAdmitted k)
  | .readDisplay => .next (.display s.fb, s)
  | .reset => .next (.nothing, s.resetByHost)

/-- R261, R275: a run, the commands in the host's order; the replies in that order and the state at the end. -/
def performAll : List Command → State → Host.Outcome (List Reply × State) Fault Refusal
  | [], s => .next ([], s)
  | c :: cs, s =>
    match perform c s with
    | .fault f => .fault f
    | .refused r => .refused r
    | .next (r, t) =>
      match performAll cs t with
      | .fault f => .fault f
      | .refused q => .refused q
      | .next (rs, u) => .next (r :: rs, u)

end Sys2Proof.Machine
end

