-- ==== Sys2Proof/Safety.lean ====
section
/-!
DEFINITION. The terms in which claims speak of runs: the terminal conditions Faulted and Parked (R275), the premise on the
font (R54), and the invariant that every command keeps.
-/

namespace Sys2Proof.Machine

/-- R275: the run has ended badly. -/
def State.faulted (s : State) : Prop := ∃ e, s.status = .halted e

/-- R275: Running, and the word at pc is 1NNN with nnn = pc, a jump to itself. -/
def State.parked (s : State) : Prop :=
  s.status = .running ∧ ∃ nnn, s.fetchInstr = .ok (.jp nnn) ∧ zextAddr nnn = s.pc

/-- R54: FontIntact, mem[0x000..0x04F] = FONT. -/
def State.fontIntact (s : State) : Prop := ∀ a, a < Config.fontSize → s.mem.read a = fontBytes.getD a 0

/-- What holds at reset and is kept by every step and command: memory is in its canonical form; pc is at most 0x10FE (R27);
every stack slot holds 0 or the address after some call that was fetched, so at most 0x1000 (R29, R94). -/
structure State.Inv (s : State) : Prop where
  /-- equal memories are equal data -/
  memory : s.mem.wf = true
  /-- R27 -/
  pcBound : s.pc.toNat ≤ 0x10FE
  /-- R29, R94 -/
  stackBound : ∀ k : Fin 16, s.stack[k.val].toNat ≤ 0x1000

end Sys2Proof.Machine
end

