-- ==== Sys2Proof/Certificates/Slice0/Obligations.lean ====
section
/-!
DEFINITION. The statements for the provers. First the terms they share, then one definition per statement, in the order of
OBLIGATIONS.json. Where a clause is the spec's own decision (D<n> of spec/92_eei_decisions.md) or the model's choice, the
docstring says so.
-/

namespace Sys2Proof.Claims

open Sys2Proof.Machine

/-! ## Shared terms -/

/-- A part of the state that a frame speaks of: all of it but pc. -/
inductive StatePart where
  /-- a V register -/
  | v (r : RegIdx)
  /-- the index register -/
  | index
  /-- the stack pointer -/
  | sp
  /-- a stack slot -/
  | slot (k : Fin 16)
  /-- the delay timer -/
  | delay
  /-- the sound timer -/
  | sound
  /-- a key -/
  | key (k : Fin 16)
  /-- a pixel -/
  | pixel (row : Fin 32) (col : Fin 64)
  /-- the byte at an address -/
  | byte (a : Nat)
  /-- the status latch -/
  | status
  /-- the model's draw counter -/
  | draws

/-- The part is the same in both states; a byte of memory is compared by reading it. -/
def StatePart.same (s t : State) : StatePart → Prop
  | .v r => t.readV r = s.readV r
  | .index => t.I = s.I
  | .sp => t.SP = s.SP
  | .slot k => t.stack[k.val] = s.stack[k.val]
  | .delay => t.DT = s.DT
  | .sound => t.ST = s.ST
  | .key k => t.key[k.val] = s.key[k.val]
  | .pixel row col => Framebuffer.pixel t.fb row col = Framebuffer.pixel s.fb row col
  | .byte a => t.mem.read a = s.mem.read a
  | .status => t.status = s.status
  | .draws => t.draws = s.draws

/-- Everything but the parts named (and pc) is unchanged. -/
def Frame (s t : State) (changed : StatePart → Prop) : Prop := ∀ p, ¬ changed p → StatePart.same s t p

/-- The word with this number decodes to the instruction. -/
def Decodes (n : Nat) (i : Instr) : Prop := decodeWord (BitVec.ofNat 16 n) = some i

/-- The instruction answers a next state of which this holds. -/
def Answers (i : Instr) (s : State) (post : State → Prop) : Prop := ∃ t, exec i s = .next t ∧ post t

/-- The instruction raises the error: the next state is the old one with the status Halted(e) (R233). -/
def Raises (i : Instr) (s : State) (e : FatalError) : Prop := exec i s = .next { s with status := .halted e }

/-- The opcode at pc: mem[pc] * 256 + mem[pc + 1] (R58). -/
def wordAt (s : State) : Word :=
  BitVec.ofNat 16 ((s.mem.read s.pc.toNat).toNat * 256 + (s.mem.read (s.pc.toNat + 1)).toNat)

/-- The bytes at pc are inside memory and decode to the instruction. -/
def Fetches (s : State) (i : Instr) : Prop := s.pc.toNat + 1 < 4096 ∧ decodeWord (wordAt s) = some i

/-- R111, R112: a set bit of the n-row sprite at I, drawn at (V[x] mod 64, V[y] mod 32), lies on this pixel. -/
def Lit (s : State) (x y : RegIdx) (n : RowCount) (row : Fin 32) (col : Fin 64) : Prop :=
  ∃ r k : Nat, r < n.val ∧ k < 8 ∧ (s.mem.read (s.I.toNat + r)).getLsbD (7 - k) = true ∧
    ((s.readV y).toNat % 32 + r) % 32 = row.val ∧ ((s.readV x).toNat % 64 + k) % 64 = col.val

/-- The parts that an instruction may change when it raises nothing (R23, R26, R28 to R33, R64). -/
def mayChange (s : State) : Instr → StatePart → Prop
  | .cls, p => ∃ row col, p = .pixel row col
  | .ret, p => p = .sp
  | .jp _, _ | .jpV0 _, _ => False
  | .call _, p => p = .sp ∨ ∃ k, k.val = s.SP.val ∧ p = .slot k
  | .seImm _ _, _ | .sneImm _ _, _ | .seReg _ _, _ | .sneReg _ _, _ => False
  | .ldImm x _, p | .addImm x _, p | .ldReg x _, p | .orReg x _, p | .andReg x _, p | .xorReg x _, p => p = .v x
  | .addReg x _, p | .sub x _, p | .shr x _, p | .subn x _, p | .shl x _, p => p = .v x ∨ p = .v 15
  | .ldI _, p | .addI _, p | .ldF _, p => p = .index
  | .rnd x _, p => p = .v x ∨ p = .draws
  | .drw _ _ _, p => p = .v 15 ∨ ∃ row col, p = .pixel row col
  | .skp _, _ | .sknp _, _ => False
  | .ldVDt x, p | .ldK x, p => p = .v x
  | .ldDtV _, p => p = .delay
  | .ldStV _, p => p = .sound
  | .ldB _, p => ∃ k, k < 3 ∧ p = .byte (s.I.toNat + k)
  | .ldMemV x, p => ∃ k, k ≤ x.val ∧ p = .byte (s.I.toNat + k)
  | .ldVMem x, p => ∃ r : RegIdx, r ≤ x ∧ p = .v r

/-- The one check of an instruction fails with this error (R230, R236). -/
def InstrError (s : State) : Instr → FatalError → Prop
  | .call _, e => s.SP.val = 16 ∧ e = .stackOverflow s.pc
  | .ret, e => s.SP.val = 0 ∧ e = .stackUnderflow s.pc
  | .drw _ _ n, e => 0 < n.val ∧ 4096 ≤ s.I.toNat + n.val - 1 ∧ e = .memOutOfRange (max s.I.toNat 4096)
  | .ldB _, e => 4096 ≤ s.I.toNat + 2 ∧ e = .memOutOfRange (max s.I.toNat 4096)
  | .ldMemV x, e | .ldVMem x, e => 4096 ≤ s.I.toNat + x.val ∧ e = .memOutOfRange (max s.I.toNat 4096)
  | .skp x, e | .sknp x, e => 16 ≤ (s.readV x).toNat ∧ e = .keyIndexOutOfRange (s.readV x)
  | .cls, _ | .jp _, _ | .jpV0 _, _ | .seImm _ _, _ | .sneImm _ _, _ | .seReg _ _, _ | .sneReg _ _, _ => False
  | .ldImm _ _, _ | .addImm _ _, _ | .ldReg _ _, _ | .orReg _ _, _ | .andReg _ _, _ | .xorReg _ _, _ => False
  | .addReg _ _, _ | .sub _ _, _ | .shr _ _, _ | .subn _ _, _ | .shl _ _, _ | .rnd _ _, _ => False
  | .ldI _, _ | .addI _, _ | .ldF _, _ | .ldVDt _, _ | .ldK _, _ | .ldDtV _, _ | .ldStV _, _ => False

/-- The error that a Running state's next step meets: fetch first, then decode, then the instruction's check (R236). -/
def StepError (s : State) (e : FatalError) : Prop :=
  (4096 ≤ s.pc.toNat + 1 ∧ e = .pcOutOfRange s.pc) ∨
  (s.pc.toNat + 1 < 4096 ∧ decodeWord (wordAt s) = none ∧ e = .unsupportedOpcode (wordAt s)) ∨
  (∃ i, Fetches s i ∧ InstrError s i e)

/-- R87: the words that match no row, by family. -/
def unmatched (w : Nat) : Bool :=
  (w / 4096 == 0x0 && w != 0x00E0 && w != 0x00EE) ||
  (w / 4096 == 0x5 && w % 16 != 0) ||
  (w / 4096 == 0x8 && decide (w % 16 ∈ [0x8, 0x9, 0xA, 0xB, 0xC, 0xD, 0xF])) ||
  (w / 4096 == 0x9 && w % 16 != 0) ||
  (w / 4096 == 0xE && decide (w % 256 ∉ [0x9E, 0xA1])) ||
  (w / 4096 == 0xF && decide (w % 256 ∉ [0x07, 0x0A, 0x15, 0x18, 0x1E, 0x29, 0x33, 0x55, 0x65]))

end Sys2Proof.Claims

open Sys2Proof Sys2Proof.Machine Sys2Proof.Claims

/-- Words of every family 0 to F of the opcode table, written out from the spec's encodings, decode to the instructions
they stand for.
(30_encoding.md section 2 (R85), opcode_table.json.) -/
def Obligations.SpecWordsDecode : Prop :=
  Decodes 0x00E0 .cls ∧ Decodes 0x00EE .ret ∧ Decodes 0x1234 (.jp 0x234) ∧ Decodes 0x2FFF (.call 0xFFF) ∧
  Decodes 0x3A42 (.seImm 10 0x42) ∧ Decodes 0x4381 (.sneImm 3 0x81) ∧ Decodes 0x5120 (.seReg 1 2) ∧
  Decodes 0x6A2F (.ldImm 10 0x2F) ∧ Decodes 0x75FE (.addImm 5 0xFE) ∧
  Decodes 0x8FE4 (.addReg 15 14) ∧ Decodes 0x81FE (.shl 1 15) ∧ Decodes 0x9120 (.sneReg 1 2) ∧ Decodes 0xA123 (.ldI 0x123) ∧
  Decodes 0xB300 (.jpV0 0x300) ∧ Decodes 0xC30F (.rnd 3 0x0F) ∧ Decodes 0xD015 (.drw 0 1 5) ∧
  Decodes 0xE59E (.skp 5) ∧ Decodes 0xF30A (.ldK 3) ∧ Decodes 0xFF65 (.ldVMem 15)

/-- For every instruction, with every operand at every value, and whatever bytes follow: decoding its encoding answers the
instruction and the bytes that follow.
(30_encoding.md sections 1 and 2 (R80, R83, R85), 20_memory.md section 3 (R58).) -/
def Obligations.DecodeOfEncodeIsTheInstruction : Prop :=
  ∀ (i : Instr) (rest : List Byte), decode (encodeBytes i ++ rest) = .ok (i, rest)

/-- Every word that decodes to an instruction is that instruction's encoding: decoding drops no bit of the word. (For SHR
and SHL this holds because the instruction keeps the field y that it does not read: the model's choice, log entry 8,
DESIGN CHOICE.)
(30_encoding.md sections 1 and 2 (R83, R85).) -/
def Obligations.EncodeOfDecodeIsTheWord : Prop :=
  ∀ (w : Word) (i : Instr), decodeWord w = some i → encode i = w

/-- A word decodes to no instruction if and only if it is one of the words R87 lists by family. There are 21582 of them
and 43954 words are instructions. A Running step that fetches one halts with UnsupportedOpcode(opcode).
(R87.) -/
def Obligations.UnmatchedWordsAreExactlyTheListed : Prop :=
  (∀ w : Word, decodeWord w = none ↔ unmatched w.toNat = true) ∧
  (List.range 65536).countP unmatched = 21582 ∧ (List.range 65536).countP (fun w => !unmatched w) = 43954 ∧
  ∀ s : State, s.status = .running → s.pc.toNat + 1 < 4096 → unmatched (wordAt s).toNat = true →
    ∃ t, step s = .next t ∧ t.status = .halted (.unsupportedOpcode (wordAt s))

/-- For every word, two rows of the table whose fixed bits both match are one and the same row; so looking the word up in
the table in any other order of its 34 rows makes the same instruction.
(30_encoding.md section 2 (R90, derived there from R85).) -/
def Obligations.OpcodeRowsAreDisjoint : Prop :=
  opcodeTable.length = 34 ∧
  (∀ (w : Word) (i j : Fin opcodeTable.length), (opcodeTable.get i).hits w = true → (opcodeTable.get j).hits w = true → i = j) ∧
  ∀ (rows : List OpcodeRow), rows.Perm opcodeTable → ∀ w : Word,
    (rows.find? fun r => r.hits w).map (fun r => r.build (Fields.ofWord w)) = decodeWord w

/-- In a Running state whose pc and pc + 1 are inside memory and whose word mem[pc] * 256 + mem[pc + 1] decodes to i, step
is exec of i on that state; the advance of pc to pc0 + 2 is made by exec itself, from the same state (log entry 4).
(30_encoding.md section 4 (R92 to R97), 20_memory.md section 3 (R58).) -/
def Obligations.StepRunsTheDecodedInstruction : Prop :=
  ∀ (s : State) (i : Instr), s.status = .running → Fetches s i → step s = exec i s

/-- Fetching the word answers mem[pc] * 256 + mem[pc + 1] when pc + 1 < 4096, at pc = 0xFFE too, and raises
PcOutOfRange(pc) otherwise; then a Running step halts with that error.
(R62.) -/
def Obligations.FetchRaisesPcOutOfRange : Prop :=
  ∀ s : State,
    (s.pc.toNat + 1 < 4096 → s.fetchWord = .ok (wordAt s) ∧
      (wordAt s).toNat = (s.mem.read s.pc.toNat).toNat * 256 + (s.mem.read (s.pc.toNat + 1)).toNat) ∧
    (4096 ≤ s.pc.toNat + 1 → s.fetchWord = .error (.pcOutOfRange s.pc) ∧
      (s.status = .running → ∃ t, step s = .next t ∧ t.status = .halted (.pcOutOfRange s.pc)))

/-- In a Halted state step answers the same state, and the STEP command replies with the error that halted it. (The spec's
decision D8.)
(60_exceptions.md section 1 (R234, decision D8).) -/
def Obligations.HaltedStepChangesNothing : Prop :=
  ∀ (s : State) (e : FatalError), s.status = .halted e →
    step s = .next s ∧ perform .step s = .next (.fatal e, s)

/-- Whenever a step of a Running state ends Halted with an error, every other part of the state, pc included, is as it was
when the step began. (The spec's decision D7.)
(60_exceptions.md section 1 (R233, decision D7), 60_exceptions.md section 1 (R235, derived there).) -/
def Obligations.FatalErrorsArePrecise : Prop :=
  ∀ (s t : State) (e : FatalError), s.status = .running → step s = .next t → t.status = .halted e →
    t = { s with status := .halted e }

/-- A step of a Running state ends Halted(e) if and only if e is the error of the first failing check: PcOutOfRange at
fetch, UnsupportedOpcode at decode, or the one check the fetched instruction has (StackOverflow, StackUnderflow,
MemOutOfRange with the lowest bad address, KeyIndexOutOfRange). At most one error fits.
(60_exceptions.md section 1 (R230, R236; decisions D5, D9, D14, D15), 30_encoding.md section 4 (R93 to R96).) -/
def Obligations.StepRaisesExactlyTheListedErrors : Prop :=
  ∀ s : State, s.status = .running →
    (∀ e, (∃ t, step s = .next t ∧ t.status = .halted e) ↔ StepError s e) ∧
    (∀ e e', StepError s e → StepError s e' → e = e')

/-- For every state, reachable or not, step answers a next state; so do all 34 instructions on every state.
(30_encoding.md section 4 (R97, R98), 10_state.md section 9 (R37).) -/
def Obligations.StepAlwaysAnswersANextState : Prop :=
  (∀ s : State, ∃ t, step s = .next t) ∧ ∀ (i : Instr) (s : State), ∃ t, exec i s = .next t

/-- After construction memory is in its canonical form, pc is at most 0x10FE and every stack slot is at most 0x1000. (The
canonical form of memory is the model's own, log entry 8, DESIGN CHOICE; the two bounds are those of the rules cited.)
(10_state.md section 10 (R38), 70_reset_and_hazards.md section 1 (R280).) -/
def Obligations.InvariantAtReset : Prop :=
  State.reset.Inv

/-- From every state with the invariant, a step leads to a state with it: memory stays in its canonical form, pc never
exceeds 0x10FE, and every stack slot stays at most 0x1000. (The canonical form of memory is the model's own, log entry
8, DESIGN CHOICE; the two bounds follow from the rules cited.)
(10_state.md section 4 (R27, derived there; R29), 30_encoding.md section 4 (R94).) -/
def Obligations.StepKeepsInvariant : Prop :=
  ∀ s t : State, s.Inv → step s = .next t → t.Inv

/-- From every state with the invariant, every sequence of host commands that the model does not refuse leads to a state
with it. (The invariant's clause on the canonical form of memory is the model's own, log entry 8, DESIGN CHOICE.)
(60_exceptions.md section 5 (R260, R264), 20_memory.md section 8 (R73), 70_reset_and_hazards.md section 1 (R281).) -/
def Obligations.CommandsKeepInvariant : Prop :=
  ∀ (cs : List Command) (s t : State) (rs : List Reply), s.Inv → performAll cs s = .next (rs, t) → t.Inv

/-- When an instruction of a Running state raises nothing, everything but pc and the parts the spec names for that
instruction is unchanged: V registers by R23, I by R26, SP and the pushed slot by R28 and R29, DT and ST by R30 and
R31, pixels by R33, bytes of memory by R64; no instruction changes a key. Only CXNN advances the draw counter, which
is the model's own (log entry 2, DESIGN CHOICE).
(10_state.md section 2 (R23), 10_state.md sections 4 to 8 (R26, R28 to R34), 20_memory.md section 6 (R64).) -/
def Obligations.InstructionsChangeOnlyWhatTheTableNames : Prop :=
  ∀ (i : Instr) (s t : State), s.status = .running → exec i s = .next t → t.status = .running → Frame s t (mayChange s i)

/-- Changing ST before an instruction or a command changes nothing in the state after it but ST, and no reply but TICK's
beep, which is true if and only if ST was 1. Among the instructions only FX18 writes ST (ST <- V[x]). TICK decrements
it, floored at 0; RESET sets it to 0, its value after construction; LOAD, KEY, READ_DISPLAY, and a STEP that does not
run FX18 leave it as it was. (The commands work alike in a Halted state: the spec's decisions D18 and D19.)
(10_state.md section 5 (R31), 60_exceptions.md sections 3 and 5 (R250, R251, R264, R265; R253, decision D18),
20_memory.md section 8 (R73, R74, decision D19), 70_reset_and_hazards.md section 1 (R281).) -/
def Obligations.SoundTimerIsWrittenByTwoAndReadByTick : Prop :=
  (∀ (i : Instr) (s t : State) (v : Byte), exec i s = .next t →
    ∃ t', exec i { s with ST := v } = .next t' ∧ { t' with ST := 0 } = { t with ST := 0 }) ∧
  (∀ (i : Instr) (s t : State), exec i s = .next t → (∀ x, i ≠ .ldStV x) → t.ST = s.ST) ∧
  (∀ (x : RegIdx) (s : State), Answers (.ldStV x) s fun t => t.ST = s.readV x) ∧
  (∀ s : State, ∃ b t, perform .tick s = .next (.beep b, t) ∧ (b = true ↔ s.ST = 1) ∧ t.ST.toNat = s.ST.toNat - 1) ∧
  (∀ (c : Command) (s t : State) (v : Byte) (r : Reply), perform c s = .next (r, t) →
    ∃ r' t', perform c { s with ST := v } = .next (r', t') ∧ { t' with ST := 0 } = { t with ST := 0 } ∧
      (c ≠ .tick → r' = r)) ∧
  (∀ (c : Command) (s t : State) (r : Reply), c ≠ .tick → c ≠ .reset → perform c s = .next (r, t) →
    t.ST = s.ST ∨ (c = .step ∧ s.status = .running ∧ ∃ x, Fetches s (.ldStV x))) ∧
  (∀ s : State, ∃ r t, perform .reset s = .next (r, t) ∧ t.ST = 0) ∧
  State.reset.ST = 0

/-- Two states that differ only in a stack slot k >= SP step to states that agree in everything but the stack, and agree
in every occupied slot of it.
(10_state.md section 4 (R29, derived there), 10_state.md section 9 (R36).) -/
def Obligations.StaleStackSlotsAreNeverObserved : Prop :=
  ∀ (s t : State) (k : Fin 16) (a : Word), s.SP.val ≤ k.val → step s = .next t →
    ∃ t', step { s with stack := s.stack.set k.val a } = .next t' ∧ { t' with stack := t.stack } = t ∧
      ∀ j : Fin 16, j.val < t.SP.val → t'.stack[j.val] = t.stack[j.val]

/-- 0x00E0 decodes to CLS; in every state it completes: every pixel is off, pc = pc0 + 2, and V, VF, I, memory, the stack,
the timers, the keys and the status are unchanged.
(R110.) -/
def Obligations.ClearDisplayTurnsEveryPixelOff : Prop :=
  Decodes 0x00E0 .cls ∧ ∀ s : State, Answers .cls s fun t =>
    (∀ row col, Framebuffer.pixel t.fb row col = false) ∧ t.pc = s.pc + 2 ∧
    Frame s t fun p => ∃ row col, p = .pixel row col

/-- For n >= 1 and I + n - 1 < 4096, DXYN completes: a pixel is toggled exactly when a set bit of the sprite at I, placed
at (V[x] mod 64, V[y] mod 32) and wrapped pixel by pixel, lies on it; VF is 1 if any such pixel was on before, else 0;
pc = pc0 + 2; nothing but VF and pixels changes. Every word DXYN decodes to it. (For x = 15 or y = 15 the origin is
VF's value before the instruction, since VF is written last: the spec's decision D12.)
(40_display.md (R111, R112, R113; decision D12 for x = 15 or y = 15).) -/
def Obligations.DrawXorsTheSpriteAndOrsTheCollision : Prop :=
  ∀ (x y : RegIdx) (n : RowCount), Decodes (0xD000 + x.val * 256 + y.val * 16 + n.val) (.drw x y n) ∧
    ∀ s : State, 1 ≤ n.val → s.I.toNat + n.val - 1 < 4096 → Answers (.drw x y n) s fun t =>
      (∀ row col, Lit s x y n row col → Framebuffer.pixel t.fb row col = !Framebuffer.pixel s.fb row col) ∧
      (∀ row col, ¬ Lit s x y n row col → Framebuffer.pixel t.fb row col = Framebuffer.pixel s.fb row col) ∧
      ((∃ row col, Lit s x y n row col ∧ Framebuffer.pixel s.fb row col = true) → t.readV 15 = 1) ∧
      ((∀ row col, Lit s x y n row col → Framebuffer.pixel s.fb row col = false) → t.readV 15 = 0) ∧
      t.pc = s.pc + 2 ∧ Frame s t fun p => p = .v 15 ∨ ∃ row col, p = .pixel row col

/-- With n = 0, DXYN completes in every state, whatever I is: no pixel and nothing else changes but VF, which is 0, and pc
= pc0 + 2. (The spec's decision D10.)
(40_display.md (R114, decision D10).) -/
def Obligations.DrawOfNoRowsOnlyClearsVF : Prop :=
  ∀ (x y : RegIdx) (s : State), Answers (.drw x y 0) s fun t =>
    t.readV 15 = 0 ∧ t.pc = s.pc + 2 ∧ Frame s t fun p => p = .v 15

/-- For n > 0 and I + n - 1 >= 4096, DXYN raises MemOutOfRange(max(I, 4096)): framebuffer, VF and everything else but the
status are unchanged. (The spec's decisions D5 and D7.)
(40_display.md (R117, decisions D5 and D7), 20_memory.md section 6 (R66).) -/
def Obligations.DrawOutOfRangeRaises : Prop :=
  ∀ (x y : RegIdx) (n : RowCount) (s : State), 0 < n.val → 4096 ≤ s.I.toNat + n.val - 1 →
    Raises (.drw x y n) s (.memOutOfRange (max s.I.toNat 4096))

/-- For x and y other than 15, two DXYN in succession that both complete leave the framebuffer as before the first; after
the second VF is 1 if and only if some set bit of the sprite lies on a pixel that was off before the first draw.
(40_display.md (R116, derived there).) -/
def Obligations.DrawTwiceRestoresTheFramebuffer : Prop :=
  ∀ (x y : RegIdx) (n : RowCount) (s : State), x ≠ 15 → y ≠ 15 → (n.val = 0 ∨ s.I.toNat + n.val ≤ 4096) →
    ∃ t u, exec (.drw x y n) s = .next t ∧ exec (.drw x y n) t = .next u ∧ u.fb = s.fb ∧
      (u.readV 15 = 1 ↔ ∃ row col, Lit s x y n row col ∧ Framebuffer.pixel s.fb row col = false) ∧
      (u.readV 15 = 0 ∨ u.readV 15 = 1)

/-- 0x00EE decodes to RET. With SP >= 1 it completes: pc is the word in slot SP - 1, SP is one less, no slot is cleared
and nothing else changes. With SP = 0 it raises StackUnderflow(pc0), the state otherwise unchanged. No instruction but
2NNN writes a slot.
(R140.) -/
def Obligations.ReturnPopsThePc : Prop :=
  Decodes 0x00EE .ret ∧
  (∀ (s : State) (k : Fin 16), s.SP.val = k.val + 1 → Answers .ret s fun t =>
    t.pc = s.stack[k.val] ∧ t.SP.val = k.val ∧ Frame s t fun p => p = .sp) ∧
  (∀ s : State, s.SP.val = 0 → Raises .ret s (.stackUnderflow s.pc)) ∧
  ∀ (i : Instr) (s t : State), (∀ nnn, i ≠ .call nnn) → exec i s = .next t → t.stack = s.stack

/-- Every word 1NNN decodes to JP; in every state it completes with pc = nnn and nothing else changed; if the next fetch
is at 0xFFF it raises PcOutOfRange, and a jump to itself leaves the state as it was.
(R141.) -/
def Obligations.JumpSetsThePc : Prop :=
  ∀ nnn : Addr12, Decodes (0x1000 + nnn.toNat) (.jp nnn) ∧ ∀ s : State,
    (Answers (.jp nnn) s fun t => t.pc.toNat = nnn.toNat ∧ Frame s t (fun _ => False) ∧
      (nnn.toNat = 0xFFF → t.fetchWord = .error (.pcOutOfRange 0xFFF))) ∧
    (nnn.toNat = s.pc.toNat → exec (.jp nnn) s = .next s)

/-- Every word 2NNN decodes to CALL. With SP < 16 it completes: slot SP holds pc0 + 2, SP is one more, pc = nnn, nothing
else changes. With SP = 16 it raises StackOverflow(pc0), the state otherwise unchanged.
(R142.) -/
def Obligations.CallPushesTheReturnAddress : Prop :=
  ∀ nnn : Addr12, Decodes (0x2000 + nnn.toNat) (.call nnn) ∧
    (∀ (s : State) (k : Fin 16), s.SP.val = k.val → Answers (.call nnn) s fun t =>
      t.stack[k.val] = s.pc + 2 ∧ t.SP.val = k.val + 1 ∧ t.pc.toNat = nnn.toNat ∧
      Frame s t fun p => p = .sp ∨ p = .slot k) ∧
    ∀ s : State, s.SP.val = 16 → Raises (.call nnn) s (.stackOverflow s.pc)

/-- Every word BNNN decodes to JP V0; in every state it completes with pc = V[0] + nnn as an unbounded sum, nothing else
changed. (No check of the target: the spec's decision D6.)
(41_control_flow.md section 2 (R143, decision D6).) -/
def Obligations.JumpWithOffsetAddsV0 : Prop :=
  ∀ nnn : Addr12, Decodes (0xB000 + nnn.toNat) (.jpV0 nnn) ∧ ∀ s : State, Answers (.jpV0 nnn) s fun t =>
    t.pc.toNat = (s.readV 0).toNat + nnn.toNat ∧ Frame s t fun _ => False

/-- Every word 3XNN and 4XNN decodes to its instruction; both complete in every state: pc = pc0 + 4 when the skip is taken
and pc0 + 2 when it is not, and nothing else changes.
(R151, R152.) -/
def Obligations.SkipsOnImmediateComparison : Prop :=
  ∀ (x : RegIdx) (nn : Byte),
    Decodes (0x3000 + x.val * 256 + nn.toNat) (.seImm x nn) ∧ Decodes (0x4000 + x.val * 256 + nn.toNat) (.sneImm x nn) ∧
    ∀ s : State,
      (Answers (.seImm x nn) s fun t =>
        (t.pc = if s.readV x = nn then s.pc + 4 else s.pc + 2) ∧ Frame s t fun _ => False) ∧
      (Answers (.sneImm x nn) s fun t =>
        (t.pc = if s.readV x = nn then s.pc + 2 else s.pc + 4) ∧ Frame s t fun _ => False)

/-- Every word 5XY0 and 9XY0 decodes to its instruction, and no word 5XYN or 9XYN with N != 0 decodes. Both complete in
every state: pc = pc0 + 4 when the skip is taken and pc0 + 2 when it is not, and nothing else changes; x = y always
skips, or never.
(R153, R154.) -/
def Obligations.SkipsOnRegisterComparison : Prop :=
  ∀ x y : RegIdx,
    Decodes (0x5000 + x.val * 256 + y.val * 16) (.seReg x y) ∧ Decodes (0x9000 + x.val * 256 + y.val * 16) (.sneReg x y) ∧
    (∀ n : Fin 16, n ≠ 0 → decodeWord (BitVec.ofNat 16 (0x5000 + x.val * 256 + y.val * 16 + n.val)) = none ∧
      decodeWord (BitVec.ofNat 16 (0x9000 + x.val * 256 + y.val * 16 + n.val)) = none) ∧
    ∀ s : State,
      (Answers (.seReg x y) s fun t =>
        (t.pc = if s.readV x = s.readV y then s.pc + 4 else s.pc + 2) ∧ Frame s t fun _ => False) ∧
      (Answers (.sneReg x y) s fun t =>
        (t.pc = if s.readV x = s.readV y then s.pc + 2 else s.pc + 4) ∧ Frame s t fun _ => False)

/-- With at most 14 occupied slots, a call, a second call and two returns all complete: the first return goes to the
address after the second call, the second to the address after the first, and the stack pointer is as at the start.
Pop reads the slot below the pointer and leaves every slot as it is; on an empty stack it raises StackUnderflow(pc0).
(R132.) -/
def Obligations.CallsReturnInLifoOrder : Prop :=
  (∀ (s : State) (a b : Addr12), s.SP.val ≤ 14 →
    ∃ t u v w, exec (.call a) s = .next t ∧ exec (.call b) t = .next u ∧ exec .ret u = .next v ∧ exec .ret v = .next w ∧
      v.pc = t.pc + 2 ∧ w.pc = s.pc + 2 ∧ w.SP = s.SP) ∧
  (∀ (s : State) (k : Fin 16) (pc0 : Word), s.SP.val = k.val + 1 →
    ∃ t : State, s.pop pc0 = .ok (s.stack[k.val], t) ∧ t.SP.val = k.val ∧ t.stack = s.stack) ∧
  ∀ (s : State) (pc0 : Word), s.SP.val = 0 → s.pop pc0 = .error (.stackUnderflow pc0)

/-- Every word 6XNN decodes to LD; it completes in every state: V[x] = nn, pc = pc0 + 2, nothing else changes.
(R160.) -/
def Obligations.LoadImmediateSetsVx : Prop :=
  ∀ (x : RegIdx) (nn : Byte), Decodes (0x6000 + x.val * 256 + nn.toNat) (.ldImm x nn) ∧ ∀ s : State,
    Answers (.ldImm x nn) s fun t => t.readV x = nn ∧ t.pc = s.pc + 2 ∧ Frame s t fun p => p = .v x

/-- Every word 7XNN decodes to ADD; it completes in every state: V[x] = (V[x] + nn) mod 256, pc = pc0 + 2, nothing else
changes; VF is unchanged unless x = 15.
(R161.) -/
def Obligations.AddImmediateWrapsWithoutFlag : Prop :=
  ∀ (x : RegIdx) (nn : Byte), Decodes (0x7000 + x.val * 256 + nn.toNat) (.addImm x nn) ∧ ∀ s : State,
    Answers (.addImm x nn) s fun t => (t.readV x).toNat = ((s.readV x).toNat + nn.toNat) % 256 ∧ t.pc = s.pc + 2 ∧
      Frame s t fun p => p = .v x

/-- Every word 8XY0 decodes to LD; it completes in every state: V[x] = V[y], pc = pc0 + 2, nothing else changes.
(R162.) -/
def Obligations.LoadRegisterCopiesVy : Prop :=
  ∀ x y : RegIdx, Decodes (0x8000 + x.val * 256 + y.val * 16) (.ldReg x y) ∧ ∀ s : State,
    Answers (.ldReg x y) s fun t => t.readV x = s.readV y ∧ t.pc = s.pc + 2 ∧ Frame s t fun p => p = .v x

/-- The words 8XY1, 8XY2 and 8XY3 decode to OR, AND and XOR; each completes in every state: bit b of V[x] is the OR, AND
or XOR of bit b of V[x] and V[y], pc = pc0 + 2, nothing else changes, VF unless x = 15 included.
(R163, R164, R165.) -/
def Obligations.LogicalOperationsWriteNoFlag : Prop :=
  ∀ x y : RegIdx, Decodes (0x8001 + x.val * 256 + y.val * 16) (.orReg x y) ∧
    Decodes (0x8002 + x.val * 256 + y.val * 16) (.andReg x y) ∧ Decodes (0x8003 + x.val * 256 + y.val * 16) (.xorReg x y) ∧
    ∀ s : State,
      (Answers (.orReg x y) s fun t => (∀ b, (t.readV x).getLsbD b = ((s.readV x).getLsbD b || (s.readV y).getLsbD b)) ∧
        t.pc = s.pc + 2 ∧ Frame s t fun p => p = .v x) ∧
      (Answers (.andReg x y) s fun t => (∀ b, (t.readV x).getLsbD b = ((s.readV x).getLsbD b && (s.readV y).getLsbD b)) ∧
        t.pc = s.pc + 2 ∧ Frame s t fun p => p = .v x) ∧
      (Answers (.xorReg x y) s fun t => (∀ b, (t.readV x).getLsbD b = ((s.readV x).getLsbD b ^^ (s.readV y).getLsbD b)) ∧
        t.pc = s.pc + 2 ∧ Frame s t fun p => p = .v x)

/-- Every word 8XY4 decodes to ADD; it completes in every state: VF = 1 if V[x] + V[y] > 255, else 0; for x other than 15,
V[x] = (V[x] + V[y]) mod 256; pc = pc0 + 2; nothing else changes. (That the flag wins for x = 15 is the spec's
decision D12.)
(42_alu.md section 2 (R166, decision D12 for x = 15), 42_alu.md section 4 (R182).) -/
def Obligations.AddRegistersSetsCarry : Prop :=
  ∀ x y : RegIdx, Decodes (0x8004 + x.val * 256 + y.val * 16) (.addReg x y) ∧ ∀ s : State,
    Answers (.addReg x y) s fun t =>
      (t.readV 15 = if 255 < (s.readV x).toNat + (s.readV y).toNat then 1 else 0) ∧
      (x ≠ 15 → (t.readV x).toNat = ((s.readV x).toNat + (s.readV y).toNat) % 256) ∧
      t.pc = s.pc + 2 ∧ Frame s t fun p => p = .v x ∨ p = .v 15

/-- The words 8XY5 and 8XY7 decode to SUB and SUBN; each completes in every state. SUB: VF = 0 if V[x] < V[y], else 1; for
x other than 15, V[x] = (V[x] - V[y]) mod 256. SUBN: the same with V[x] and V[y] exchanged in the difference. pc = pc0
+ 2; nothing else changes. (x = 15: the spec's decision D12.)
(42_alu.md section 2 (R167, R169, decision D12 for x = 15), 42_alu.md section 4 (R182).) -/
def Obligations.SubtractionsSetNotBorrow : Prop :=
  ∀ x y : RegIdx, Decodes (0x8005 + x.val * 256 + y.val * 16) (.sub x y) ∧
    Decodes (0x8007 + x.val * 256 + y.val * 16) (.subn x y) ∧ ∀ s : State,
      (Answers (.sub x y) s fun t =>
        (t.readV 15 = if (s.readV x).toNat < (s.readV y).toNat then 0 else 1) ∧
        (x ≠ 15 → ((t.readV x).toNat : Int) = (((s.readV x).toNat : Int) - (s.readV y).toNat) % 256) ∧
        t.pc = s.pc + 2 ∧ Frame s t fun p => p = .v x ∨ p = .v 15) ∧
      (Answers (.subn x y) s fun t =>
        (t.readV 15 = if (s.readV y).toNat < (s.readV x).toNat then 0 else 1) ∧
        (x ≠ 15 → ((t.readV x).toNat : Int) = (((s.readV y).toNat : Int) - (s.readV x).toNat) % 256) ∧
        t.pc = s.pc + 2 ∧ Frame s t fun p => p = .v x ∨ p = .v 15)

/-- The words 8XY6 and 8XYE decode to SHR and SHL for every y; each completes in every state and has the same outcome for
every y. SHR: VF = bit 0 of V[x]; for x other than 15, V[x] = V[x] div 2. SHL: VF = bit 7 of V[x], V[x] = V[x] * 2 mod
256. pc = pc0 + 2; nothing else changes. (x = 15: the spec's decision D12.)
(42_alu.md section 2 (R168, R170, decision D12 for x = 15), 30_encoding.md section 2 (R89).) -/
def Obligations.ShiftsIgnoreVyAndSetVF : Prop :=
  ∀ x y : RegIdx, Decodes (0x8006 + x.val * 256 + y.val * 16) (.shr x y) ∧
    Decodes (0x800E + x.val * 256 + y.val * 16) (.shl x y) ∧ ∀ s : State,
      (∀ z : RegIdx, exec (.shr x y) s = exec (.shr x z) s ∧ exec (.shl x y) s = exec (.shl x z) s) ∧
      (Answers (.shr x y) s fun t =>
        (t.readV 15).toNat = (s.readV x).toNat % 2 ∧ (x ≠ 15 → (t.readV x).toNat = (s.readV x).toNat / 2) ∧
        t.pc = s.pc + 2 ∧ Frame s t fun p => p = .v x ∨ p = .v 15) ∧
      (Answers (.shl x y) s fun t =>
        (t.readV 15).toNat = (s.readV x).toNat / 128 ∧ (x ≠ 15 → (t.readV x).toNat = (s.readV x).toNat * 2 % 256) ∧
        t.pc = s.pc + 2 ∧ Frame s t fun p => p = .v x ∨ p = .v 15)

/-- Every word CXNN decodes to RND. For every draw r, the meaning with that draw completes with V[x] = r AND nn, and 0
when nn = 0; the machine's own CXNN is the meaning with a free value. pc = pc0 + 2, exactly one draw is taken, nothing
else changes. (That the draws are numbered by a counter, which is one more afterwards, and that the draw is
Config.rand8 of it, is the model's choice, log entry 2, DESIGN CHOICE.)
(42_alu.md section 3 (R175, R176; decision D13).) -/
def Obligations.RandomIsMaskedForEveryDraw : Prop :=
  ∀ (x : RegIdx) (nn : Byte), Decodes (0xC000 + x.val * 256 + nn.toNat) (.rnd x nn) ∧ ∀ s : State,
    (∀ r : Byte, ∃ t, rndWithDraw r x nn s = .next t ∧ (∀ b, (t.readV x).getLsbD b = (r.getLsbD b && nn.getLsbD b)) ∧
      (nn = 0 → t.readV x = 0) ∧ t.pc = s.pc + 2 ∧ t.draws = s.draws + 1 ∧ Frame s t fun p => p = .v x ∨ p = .draws) ∧
    (∃ r : Byte, exec (.rnd x nn) s = rndWithDraw r x nn s ∧ r = Config.rand8 s.draws) ∧
    Answers (.rnd x nn) s fun t => t.draws = s.draws + 1 ∧ (nn = 0 → t.readV x = 0)

/-- Every word ANNN decodes to LD I; it completes in every state: I = nnn, pc = pc0 + 2, nothing else changes.
(R190.) -/
def Obligations.LoadIndexSetsI : Prop :=
  ∀ nnn : Addr12, Decodes (0xA000 + nnn.toNat) (.ldI nnn) ∧ ∀ s : State, Answers (.ldI nnn) s fun t =>
    t.I.toNat = nnn.toNat ∧ t.pc = s.pc + 2 ∧ Frame s t fun p => p = .index

/-- Every word FX1E decodes to ADD I; it completes in every state: I = (I + V[x]) mod 65536, also above 0x0FFF; pc = pc0 +
2; nothing else changes.
(R191.) -/
def Obligations.AddToIndexWrapsAtSixteenBits : Prop :=
  ∀ x : RegIdx, Decodes (0xF01E + x.val * 256) (.addI x) ∧ ∀ s : State, Answers (.addI x) s fun t =>
    t.I.toNat = (s.I.toNat + (s.readV x).toNat) % 65536 ∧ t.pc = s.pc + 2 ∧ Frame s t fun p => p = .index

/-- Every word FX29 decodes to LD F; it completes in every state: I = V[x] * 5 for every V[x] up to 255; pc = pc0 + 2;
nothing else changes. (Font origin and no masking: the spec's decisions D2 and D29.)
(43_index_memory.md section 2 (R192, decisions D2 and D29), 20_memory.md section 2 (R55).) -/
def Obligations.LoadFontAddressIsFiveTimesVx : Prop :=
  ∀ x : RegIdx, Decodes (0xF029 + x.val * 256) (.ldF x) ∧ ∀ s : State, Answers (.ldF x) s fun t =>
    t.I.toNat = (s.readV x).toNat * 5 ∧ t.pc = s.pc + 2 ∧ Frame s t fun p => p = .index

/-- Every word FX33 decodes to LD B. With I + 2 < 4096 it completes: no byte but those at I, I + 1, I + 2 and no other
part changes, I included; in a canonical memory these three read V[x] div 100, (V[x] div 10) mod 10 and V[x] mod 10.
With I + 2 >= 4096 it raises MemOutOfRange(max(I, 4096)) and writes nothing. (Decisions D5, D11.)
(43_index_memory.md section 3 (R194, decisions D5 and D11).) -/
def Obligations.StoreBcdWritesThreeDigits : Prop :=
  ∀ x : RegIdx, Decodes (0xF033 + x.val * 256) (.ldB x) ∧ ∀ s : State,
    (s.I.toNat + 2 < 4096 → Answers (.ldB x) s fun t =>
      (s.mem.wf = true → (t.mem.read s.I.toNat).toNat = (s.readV x).toNat / 100 ∧
        (t.mem.read (s.I.toNat + 1)).toNat = (s.readV x).toNat / 10 % 10 ∧
        (t.mem.read (s.I.toNat + 2)).toNat = (s.readV x).toNat % 10) ∧
      t.pc = s.pc + 2 ∧ Frame s t fun p => ∃ k, k < 3 ∧ p = .byte (s.I.toNat + k)) ∧
    (4096 ≤ s.I.toNat + 2 → Raises (.ldB x) s (.memOutOfRange (max s.I.toNat 4096)))

/-- Every word FX55 decodes to LD [I]. With I + x < 4096 it completes: no byte but those at I..I + x and no other part
changes, I included; in a canonical memory byte I + k reads V[k] for every k up to x. With I + x >= 4096 it raises
MemOutOfRange(max(I, 4096)) and writes nothing. (Decisions D5, D11.)
(43_index_memory.md section 3 (R195, decisions D5 and D11).) -/
def Obligations.StoreRegistersWritesTheBlock : Prop :=
  ∀ x : RegIdx, Decodes (0xF055 + x.val * 256) (.ldMemV x) ∧ ∀ s : State,
    (s.I.toNat + x.val < 4096 → Answers (.ldMemV x) s fun t =>
      (s.mem.wf = true → ∀ r : RegIdx, r ≤ x → t.mem.read (s.I.toNat + r.val) = s.readV r) ∧
      t.pc = s.pc + 2 ∧ Frame s t fun p => ∃ k, k ≤ x.val ∧ p = .byte (s.I.toNat + k)) ∧
    (4096 ≤ s.I.toNat + x.val → Raises (.ldMemV x) s (.memOutOfRange (max s.I.toNat 4096)))

/-- Every word FX65 decodes to LD Vx, [I]. With I + x < 4096 it completes: V[k] is the byte at I + k for every k up to x;
nothing else changes, I and memory included; pc = pc0 + 2. With I + x >= 4096 it raises MemOutOfRange(max(I, 4096))
and loads nothing. (Decisions D5, D11.)
(43_index_memory.md section 3 (R196, decisions D5 and D11).) -/
def Obligations.LoadRegistersReadsTheBlock : Prop :=
  ∀ x : RegIdx, Decodes (0xF065 + x.val * 256) (.ldVMem x) ∧ ∀ s : State,
    (s.I.toNat + x.val < 4096 → Answers (.ldVMem x) s fun t =>
      (∀ r : RegIdx, r ≤ x → t.readV r = s.mem.read (s.I.toNat + r.val)) ∧
      t.pc = s.pc + 2 ∧ Frame s t fun p => ∃ r : RegIdx, r ≤ x ∧ p = .v r) ∧
    (4096 ≤ s.I.toNat + x.val → Raises (.ldVMem x) s (.memOutOfRange (max s.I.toNat 4096)))

/-- In a canonical memory with I + x < 4096: FX55 completes; FX65 in any state with the same I, and with the bytes
mem[I..I+x] as the FX55 left them, completes, and every V[k] with k up to x is what it was at the FX55; the rest of
that state, other bytes of memory included, may be anything.
(43_index_memory.md section 3 (R197, derived there from R195 and R196).) -/
def Obligations.StoreThenLoadRestoresTheRegisters : Prop :=
  ∀ (x : RegIdx) (s u : State), s.mem.wf = true → s.I.toNat + x.val < 4096 →
    ∃ t, exec (.ldMemV x) s = .next t ∧
      ((∀ k, k ≤ x.val → u.mem.read (s.I.toNat + k) = t.mem.read (s.I.toNat + k)) → u.I = s.I →
        Answers (.ldVMem x) u fun w => ∀ r : RegIdx, r ≤ x → w.readV r = s.readV r)

/-- Every word EX9E and EXA1 decodes to its instruction. With V[x] = k < 16 both complete: EX9E goes to pc0 + 4 if key k
is pressed and to pc0 + 2 if not, EXA1 the other way; nothing else changes. With V[x] >= 16 both raise
KeyIndexOutOfRange(V[x]). (The spec's decision D9.)
(44_keypad_timers.md section 1 (R210 to R212, decision D9).) -/
def Obligations.KeySkipsReadTheKeypad : Prop :=
  ∀ x : RegIdx, Decodes (0xE09E + x.val * 256) (.skp x) ∧ Decodes (0xE0A1 + x.val * 256) (.sknp x) ∧ ∀ s : State,
    (∀ k : Fin 16, (s.readV x).toNat = k.val →
      (Answers (.skp x) s fun t => (t.pc = if s.key[k.val] = true then s.pc + 4 else s.pc + 2) ∧ Frame s t fun _ => False) ∧
      (Answers (.sknp x) s fun t => (t.pc = if s.key[k.val] = true then s.pc + 2 else s.pc + 4) ∧ Frame s t fun _ => False)) ∧
    (16 ≤ (s.readV x).toNat → Raises (.skp x) s (.keyIndexOutOfRange (s.readV x)) ∧
      Raises (.sknp x) s (.keyIndexOutOfRange (s.readV x)))

/-- Every word FX0A decodes to LD K; it completes in every state. If key k is pressed and none below it, V[x] = k, pc =
pc0 + 2 and nothing else changes. If no key is pressed the state after is the state before, so the next step executes
the instruction again.
(R213.) -/
def Obligations.WaitForKeyTakesTheLowestOrRepeats : Prop :=
  ∀ x : RegIdx, Decodes (0xF00A + x.val * 256) (.ldK x) ∧ ∀ s : State,
    (∀ k : Fin 16, s.key[k.val] = true → (∀ j : Fin 16, j < k → s.key[j.val] = false) →
      Answers (.ldK x) s fun t => (t.readV x).toNat = k.val ∧ t.pc = s.pc + 2 ∧ Frame s t fun p => p = .v x) ∧
    ((∀ k : Fin 16, s.key[k.val] = false) → exec (.ldK x) s = .next s)

/-- Every word FX07 decodes to LD Vx, DT; it completes in every state: V[x] = DT, pc = pc0 + 2, nothing else changes, DT
included. No instruction but FX15 changes DT, and neither does a run of host commands with no TICK and no RESET in
which no STEP runs FX15; so two FX07 with such a run between them read the same value. (RESET sets DT to 0 by R281.
The commands work alike in a Halted state: the spec's decisions D18 and D19.)
(44_keypad_timers.md section 2 (R215), 10_state.md section 5 (R30), 60_exceptions.md sections 3 and 5 (R250, R264,
R265; R253, decision D18), 20_memory.md section 8 (R73, R74, decision D19), 70_reset_and_hazards.md section 1 (R281).) -/
def Obligations.ReadDelayTimerCopiesDT : Prop :=
  ∀ x : RegIdx, Decodes (0xF007 + x.val * 256) (.ldVDt x) ∧
    (∀ s : State, Answers (.ldVDt x) s fun t => t.readV x = s.DT ∧ t.pc = s.pc + 2 ∧ Frame s t fun p => p = .v x) ∧
    (∀ (i : Instr) (s t : State), (∀ y, i ≠ .ldDtV y) → exec i s = .next t → t.DT = s.DT) ∧
    ∀ (cs : List Command) (s t : State) (rs : List Reply), Command.tick ∉ cs → Command.reset ∉ cs →
      (∀ (pre post : List Command) (u : State) (qs : List Reply), cs = pre ++ .step :: post →
        performAll pre s = .next (qs, u) → u.status = .running → ∀ y, ¬ Fetches u (.ldDtV y)) →
      performAll cs s = .next (rs, t) →
      t.DT = s.DT ∧ ∀ y : RegIdx, Answers (.ldVDt y) t fun w => w.readV y = s.DT

/-- Every word FX15 and FX18 decodes to its instruction; both complete in every state: DT = V[x], or ST = V[x]; pc = pc0 +
2; nothing else changes. TICKs after FX15 count DT down to 0 and no lower; the TICK after FX18 beeps if and only if
V[x] = 1.
(R216, R217.) -/
def Obligations.SetTimersCopyVx : Prop :=
  ∀ x : RegIdx, Decodes (0xF015 + x.val * 256) (.ldDtV x) ∧ Decodes (0xF018 + x.val * 256) (.ldStV x) ∧ ∀ s : State,
    (Answers (.ldDtV x) s fun t => t.DT = s.readV x ∧ t.pc = s.pc + 2 ∧ (Frame s t fun p => p = .delay) ∧
      t.tick.DT.toNat = (s.readV x).toNat - 1 ∧ t.tick.tick.tick.DT.toNat = (s.readV x).toNat - 3) ∧
    (Answers (.ldStV x) s fun t => t.ST = s.readV x ∧ t.pc = s.pc + 2 ∧ (Frame s t fun p => p = .sound) ∧
      ∃ b, perform .tick t = .next (.beep b, t.tick) ∧ (b = true ↔ s.readV x = 1))

/-- In every state, Running or Halted, TICK replies with the beep, true if and only if ST = 1 before; DT and ST are one
less, or 0 if they were 0; pc, status and everything else are unchanged. (That it works in a Halted state too is the
spec's decision D18.)
(60_exceptions.md section 3 (R250, R251; R253, decision D18).) -/
def Obligations.TickDecrementsBothTimersAndBeeps : Prop :=
  ∀ s : State, ∃ b t, perform .tick s = .next (.beep b, t) ∧ (b = true ↔ s.ST = 1) ∧
    t.DT.toNat = s.DT.toNat - 1 ∧ t.ST.toNat = s.ST.toNat - 1 ∧ t.pc = s.pc ∧
    Frame s t fun p => p = .delay ∨ p = .sound

/-- In every state: a ROM of at most 3584 bytes is accepted; no byte outside 0x200..0x200 + len - 1 and no other part of
the state changes, and in a canonical memory byte 0x200 + k reads rom[k]. A longer ROM is answered by CapacityError
and the state is unchanged. (The spec's decision D19.)
(20_memory.md section 8 (R73, R74, decision D19), 60_exceptions.md section 1 (R231).) -/
def Obligations.LoadCopiesTheRomOrReportsCapacity : Prop :=
  ∀ (rom : List Byte) (s : State),
    (rom.length ≤ 3584 → ∃ t, perform (.load rom) s = .next (.ok, t) ∧ t.pc = s.pc ∧
      (s.mem.wf = true → ∀ k b, rom[k]? = some b → t.mem.read (0x200 + k) = b) ∧
      Frame s t fun p => ∃ k, k < rom.length ∧ p = .byte (0x200 + k)) ∧
    (3584 < rom.length → perform (.load rom) s = .next (.capacityError, s))

/-- KEY(k, pressed) with k < 16 sets key k and changes nothing else; with k >= 16 it is refused by name. READ_DISPLAY
replies with the framebuffer, pixel by pixel, and leaves the state as it was. (The spec's decisions D24 and D4, and
D18 for a Halted state.)
(60_exceptions.md section 5 (R264, decision D24; R265, decision D4), 60_exceptions.md section 3 (R253, decision D18).) -/
def Obligations.KeyWritesOneKeyAndReadDisplayNothing : Prop :=
  ∀ s : State,
    (∀ (k : Fin 16) (b : Bool), ∃ t, perform (.key k.val b) s = .next (.nothing, t) ∧ t.key[k.val] = b ∧ t.pc = s.pc ∧
      Frame s t fun p => p = .key k) ∧
    (∀ (k : Nat) (b : Bool), 16 ≤ k → perform (.key k b) s = .refused (.keyIndexNotAdmitted k)) ∧
    ∃ fb, perform .readDisplay s = .next (.display fb, s) ∧
      ∀ row col, Framebuffer.pixel fb row col = Framebuffer.pixel s.fb row col

/-- After construction, and after RESET from any state, the 80 bytes of FONT are at the addresses 0x000..0x04F in order,
and every other address reads 0.
(R57.) -/
def Obligations.ResetMemoryIsFontAndZeroes : Prop :=
  fontBytes.length = 80 ∧ ∀ m : Memory, (m = State.reset.mem ∨ ∃ s t, perform .reset s = .next (.nothing, t) ∧ m = t.mem) →
    (∀ (a : Nat) (b : Byte), fontBytes[a]? = some b → m.read a = b) ∧ (∀ a, 80 ≤ a → m.read a = 0)

/-- RESET completes in every state, Halted too: V, I, SP, the slots, DT and ST are 0, every key up, every pixel off, pc =
0x200, status Running, memory as after construction; the draw counter (the model's own, log entry 2, DESIGN CHOICE) is
kept. (The spec's decision D20.)
(70_reset_and_hazards.md section 1 (R281, R282, decision D20), 10_state.md section 10 (R38).) -/
def Obligations.ResetRestoresTheInitialState : Prop :=
  ∀ s : State, ∃ t, perform .reset s = .next (.nothing, t) ∧ t.mem = State.reset.mem ∧ (∀ r, t.readV r = 0) ∧
    t.I.toNat = 0 ∧ t.pc.toNat = 0x200 ∧ t.SP.val = 0 ∧ (∀ k : Fin 16, t.stack[k.val].toNat = 0) ∧ t.DT.toNat = 0 ∧
    t.ST.toNat = 0 ∧ (∀ k : Fin 16, t.key[k.val] = false) ∧ (∀ row col, Framebuffer.pixel t.fb row col = false) ∧
    t.status = .running ∧ t.draws = s.draws

/-- From a Halted state, every sequence of commands without RESET that the model does not refuse ends Halted with the same
error and the same V, I, pc, SP, stack and framebuffer. (The spec's decisions D8, and D18 and D19 for the commands.
The last clause is on the draw counter, which is the model's own, log entry 2, DESIGN CHOICE: it stays as well.)
(60_exceptions.md section 1 (R234, R238, decision D8), 60_exceptions.md section 3 (R253, decision D18), 20_memory.md
section 8 (R74, decision D19), 70_reset_and_hazards.md section 1 (R282, decision D20).) -/
def Obligations.OnlyResetLeavesHalted : Prop :=
  ∀ (cs : List Command) (s t : State) (rs : List Reply) (e : FatalError), s.status = .halted e →
    Command.reset ∉ cs → performAll cs s = .next (rs, t) →
    t.status = .halted e ∧ t.V = s.V ∧ t.I = s.I ∧ t.pc = s.pc ∧ t.SP = s.SP ∧ t.stack = s.stack ∧ t.fb = s.fb ∧
      t.draws = s.draws

/-- In a canonical memory, when FX55 completes and stores over both bytes of the word that follows it, the next fetch
reads the stored registers, the lower address being the high byte.
(20_memory.md section 7 (R70, derived there; decision D21), 70_reset_and_hazards.md section 3 (R291, derived there).) -/
def Obligations.StoresAreSeenByTheNextFetch : Prop :=
  ∀ (x j k : RegIdx) (s : State), s.mem.wf = true → s.I.toNat + x.val < 4096 → s.pc.toNat + 3 < 4096 →
    s.I.toNat + j.val = s.pc.toNat + 2 → k.val = j.val + 1 → k ≤ x →
    ∃ t w, exec (.ldMemV x) s = .next t ∧ t.fetchWord = .ok w ∧ w.toNat = (s.readV j).toNat * 256 + (s.readV k).toNat

/-- A Parked state (Running, a jump to itself at pc) steps to itself; after any sequence of STEP, TICK, KEY and
READ_DISPLAY that the model does not refuse it is still Parked, and only the timers and the keys may differ. (The
spec's decision D30.)
(60_exceptions.md section 7 (R275, decision D30), 41_control_flow.md section 2 (R141).) -/
def Obligations.ParkedStaysParked : Prop :=
  ∀ s : State, s.parked → step s = .next s ∧
    ∀ (cs : List Command) (t : State) (rs : List Reply), Command.reset ∉ cs → (∀ rom, Command.load rom ∉ cs) →
      performAll cs s = .next (rs, t) →
      t.parked ∧ t.pc = s.pc ∧ Frame s t fun p => p = .delay ∨ p = .sound ∨ ∃ k, p = .key k
end

