-- ==== Sys2Proof/Laws/Memory.lean ====
section
/-!
SUPPORT. The laws of memory: a read after a write, the canonical form is kept and is canonical, and the same for the writes of
several bytes.
-/

namespace Sys2Proof.Machine

theorem Memory.read_nil (a : Nat) : Memory.read [] a = Memory.unlisted a := rfl

/-- A canonical memory from a higher bound is one from a lower bound. -/
theorem Memory.canonicalFrom_mono {lo lo' : Nat} (h : lo ≤ lo') {m : Memory} (hm : Memory.canonicalFrom lo' m = true) :
    Memory.canonicalFrom lo m = true := by
  cases m with
  | nil => rfl
  | cons c m =>
    obtain ⟨a, v⟩ := c
    simp only [Memory.canonicalFrom, Bool.and_eq_true, decide_eq_true_eq] at hm ⊢
    exact ⟨⟨⟨by omega, hm.1.1.2⟩, hm.1.2⟩, hm.2⟩

/-- Below its bound a canonical memory lists nothing. -/
theorem Memory.read_below {lo a : Nat} (h : a < lo) {m : Memory} (hm : Memory.canonicalFrom lo m = true) :
    m.read a = Memory.unlisted a := by
  induction m generalizing lo with
  | nil => rfl
  | cons c m ih =>
    obtain ⟨b, w⟩ := c
    simp only [Memory.canonicalFrom, Bool.and_eq_true, decide_eq_true_eq] at hm
    rw [Memory.read, if_neg (by omega)]
    exact ih (by omega) hm.2

/-- A read at another address than the one written sees no change (in any memory, canonical or not). -/
theorem Memory.read_write_other (m : Memory) {a a' : Nat} (v : Byte) (h : a' ≠ a) : (m.write a v).read a' = m.read a' := by
  induction m with
  | nil =>
    simp only [Memory.write]
    split
    · rfl
    · simp [Memory.read, h]
  | cons c m ih =>
    obtain ⟨b, w⟩ := c
    simp only [Memory.write]
    split
    · split
      · rfl
      · simp [Memory.read, h]
    · split
      · next hab =>
        subst hab
        split <;> simp [Memory.read, h]
      · simp [Memory.read, ih]

/-- A read at the address written gives the value written. -/
theorem Memory.read_write_same {lo : Nat} {m : Memory} (hm : Memory.canonicalFrom lo m = true) (a : Nat) (v : Byte) :
    (m.write a v).read a = v := by
  induction m generalizing lo with
  | nil =>
    simp only [Memory.write]
    split
    · next h => simp [Memory.read, h]
    · simp [Memory.read]
  | cons c m ih =>
    obtain ⟨b, w⟩ := c
    simp only [Memory.canonicalFrom, Bool.and_eq_true, decide_eq_true_eq] at hm
    simp only [Memory.write]
    split
    · next hab =>
      split
      · next h =>
        rw [Memory.read, if_neg (by omega), h]
        exact Memory.read_below (by omega) hm.2
      · simp [Memory.read]
    · split
      · next hab =>
        subst hab
        split
        · next h => rw [h]; exact Memory.read_below (by omega) hm.2
        · simp [Memory.read]
      · next hne => rw [Memory.read, if_neg hne]; exact ih hm.2

/-- A write at an address of the space keeps the canonical form. -/
theorem Memory.write_canonicalFrom {lo a : Nat} (hlo : lo ≤ a) (ha : a < 4096) (v : Byte) {m : Memory}
    (hm : Memory.canonicalFrom lo m = true) : Memory.canonicalFrom lo (m.write a v) = true := by
  induction m generalizing lo with
  | nil =>
    simp only [Memory.write]
    split
    · rfl
    · next h => simp [Memory.canonicalFrom, hlo, ha, h]
  | cons c m ih =>
    obtain ⟨b, w⟩ := c
    have hm' := hm
    simp only [Memory.canonicalFrom, Bool.and_eq_true, decide_eq_true_eq] at hm
    simp only [Memory.write]
    split
    · next hab =>
      split
      · exact hm'
      · next h =>
        simp only [Memory.canonicalFrom, Bool.and_eq_true, decide_eq_true_eq]
        exact ⟨⟨⟨hlo, ha⟩, by simpa using h⟩, ⟨⟨by omega, hm.1.1.2⟩, hm.1.2⟩, hm.2⟩
    · split
      · next hab =>
        subst hab
        split
        · exact Memory.canonicalFrom_mono (by omega) hm.2
        · next h =>
          simp only [Memory.canonicalFrom, Bool.and_eq_true, decide_eq_true_eq]
          exact ⟨⟨⟨hlo, ha⟩, by simpa using h⟩, hm.2⟩
      · simp only [Memory.canonicalFrom, Bool.and_eq_true, decide_eq_true_eq]
        exact ⟨⟨⟨hm.1.1.1, hm.1.1.2⟩, hm.1.2⟩, ih (by omega) hm.2⟩

theorem Memory.write_wf {m : Memory} (hm : m.wf = true) {a : Nat} (ha : a < 4096) (v : Byte) :
    (m.write a v).wf = true := Memory.write_canonicalFrom (Nat.zero_le a) ha v hm

/-- The form is canonical: two memories in it that read alike at every address are equal data. -/
theorem Memory.eq_of_read_eq {lo lo' : Nat} {m m' : Memory} (hm : Memory.canonicalFrom lo m = true)
    (hm' : Memory.canonicalFrom lo' m' = true) (h : ∀ a, m.read a = m'.read a) : m = m' := by
  induction m generalizing lo lo' m' with
  | nil =>
    cases m' with
    | nil => rfl
    | cons c m' =>
      obtain ⟨b, w⟩ := c
      simp only [Memory.canonicalFrom, Bool.and_eq_true, decide_eq_true_eq, bne_iff_ne] at hm'
      exact absurd (by simpa [Memory.read] using (h b).symm) hm'.1.2
  | cons c m ih =>
    obtain ⟨a, v⟩ := c
    simp only [Memory.canonicalFrom, Bool.and_eq_true, decide_eq_true_eq, bne_iff_ne] at hm
    cases m' with
    | nil => exact absurd (by simpa [Memory.read] using h a) hm.1.2
    | cons c' m' =>
      obtain ⟨b, w⟩ := c'
      simp only [Memory.canonicalFrom, Bool.and_eq_true, decide_eq_true_eq, bne_iff_ne] at hm'
      have hab : a = b := by
        rcases Nat.lt_trichotomy a b with hlt | heq | hgt
        · have := h a
          rw [Memory.read, if_pos rfl, Memory.read, if_neg (by omega), Memory.read_below (by omega) hm'.2] at this
          exact absurd this hm.1.2
        · exact heq
        · have := h b
          rw [Memory.read, if_neg (by omega), Memory.read_below (by omega) hm.2, Memory.read, if_pos rfl] at this
          exact absurd this.symm hm'.1.2
      subst hab
      have hvw : v = w := by simpa [Memory.read] using h a
      subst hvw
      rw [ih hm.2 hm'.2]
      intro k
      by_cases hk : k < a + 1
      · rw [Memory.read_below hk hm.2, Memory.read_below hk hm'.2]
      · simpa [Memory.read, show k ≠ a by omega] using h k

/-! ## Several bytes -/

@[simp] theorem Memory.readBytes_length (m : Memory) (base n : Nat) : (m.readBytes base n).length = n := by
  induction n generalizing base with
  | zero => rfl
  | succ n ih => simp [Memory.readBytes, ih]

/-- Byte k of a read of several is the byte at base + k. -/
theorem Memory.readBytes_getElem (m : Memory) (base n k : Nat) (h : k < (m.readBytes base n).length) :
    (m.readBytes base n)[k] = m.read (base + k) := by
  induction n generalizing base k with
  | zero => simp [Memory.readBytes] at h
  | succ n ih =>
    cases k with
    | zero => rfl
    | succ k =>
      have := ih (base + 1) k (by simpa [Memory.readBytes] using h)
      simpa [Memory.readBytes, Nat.add_assoc, Nat.add_comm 1] using this

/-- Writes of several bytes inside the space keep the canonical form. -/
theorem Memory.writeBytes_wf (vs : List Byte) {m : Memory} (hm : m.wf = true) {base : Nat}
    (h : base + vs.length ≤ 4096) : (m.writeBytes base vs).wf = true := by
  induction vs generalizing m base with
  | nil => exact hm
  | cons v vs ih =>
    simp only [List.length_cons] at h
    exact ih (Memory.write_wf hm (by omega) v) (by omega)

/-- Outside the bytes written every read is as before (in any memory). -/
theorem Memory.read_writeBytes_other (vs : List Byte) (m : Memory) {base a : Nat}
    (h : a < base ∨ base + vs.length ≤ a) : (m.writeBytes base vs).read a = m.read a := by
  induction vs generalizing m base with
  | nil => rfl
  | cons v vs ih =>
    simp only [List.length_cons] at h
    rw [Memory.writeBytes, ih (m.write base v) (by omega), Memory.read_write_other m v (by omega)]

/-- Byte k of a write of several reads back. -/
theorem Memory.read_writeBytes_same (vs : List Byte) {m : Memory} (hm : m.wf = true) {base : Nat}
    (hb : base + vs.length ≤ 4096) (k : Nat) (hk : k < vs.length) :
    (m.writeBytes base vs).read (base + k) = vs[k] := by
  induction vs generalizing m base k with
  | nil => simp at hk
  | cons v vs ih =>
    simp only [List.length_cons] at hb hk
    have hm' := Memory.write_wf hm (show base < 4096 by omega) v
    cases k with
    | zero =>
      rw [Memory.writeBytes, Nat.add_zero, Memory.read_writeBytes_other vs _ (Or.inl (by omega))]
      exact Memory.read_write_same hm base v
    | succ k =>
      have := ih hm' (base := base + 1) (by omega) k (by omega)
      simpa [Memory.writeBytes, Nat.add_assoc, Nat.add_comm 1] using this

end Sys2Proof.Machine
end

