-- ==== Sys2Proof/Laws/State.lean ====
section
/-!
SUPPORT. One lemma per field per update of the state, and what each update does to the reads of registers, so that no later
proof unfolds a record update.
-/

namespace Sys2Proof.Machine

/-! ### writeV -/

@[simp] theorem State.writeV_mem (s : State) (x : RegIdx) (v : Byte) : (s.writeV x v).mem = s.mem := rfl
@[simp] theorem State.writeV_V (s : State) (x : RegIdx) (v : Byte) : (s.writeV x v).V = s.V.set x.val v := rfl
@[simp] theorem State.writeV_I (s : State) (x : RegIdx) (v : Byte) : (s.writeV x v).I = s.I := rfl
@[simp] theorem State.writeV_pc (s : State) (x : RegIdx) (v : Byte) : (s.writeV x v).pc = s.pc := rfl
@[simp] theorem State.writeV_SP (s : State) (x : RegIdx) (v : Byte) : (s.writeV x v).SP = s.SP := rfl
@[simp] theorem State.writeV_stack (s : State) (x : RegIdx) (v : Byte) : (s.writeV x v).stack = s.stack := rfl
@[simp] theorem State.writeV_DT (s : State) (x : RegIdx) (v : Byte) : (s.writeV x v).DT = s.DT := rfl
@[simp] theorem State.writeV_ST (s : State) (x : RegIdx) (v : Byte) : (s.writeV x v).ST = s.ST := rfl
@[simp] theorem State.writeV_key (s : State) (x : RegIdx) (v : Byte) : (s.writeV x v).key = s.key := rfl
@[simp] theorem State.writeV_fb (s : State) (x : RegIdx) (v : Byte) : (s.writeV x v).fb = s.fb := rfl
@[simp] theorem State.writeV_status (s : State) (x : RegIdx) (v : Byte) : (s.writeV x v).status = s.status := rfl
@[simp] theorem State.writeV_draws (s : State) (x : RegIdx) (v : Byte) : (s.writeV x v).draws = s.draws := rfl

/-! ### setI -/

@[simp] theorem State.setI_mem (s : State) (a : Word) : (s.setI a).mem = s.mem := rfl
@[simp] theorem State.setI_V (s : State) (a : Word) : (s.setI a).V = s.V := rfl
@[simp] theorem State.setI_I (s : State) (a : Word) : (s.setI a).I = a := rfl
@[simp] theorem State.setI_pc (s : State) (a : Word) : (s.setI a).pc = s.pc := rfl
@[simp] theorem State.setI_SP (s : State) (a : Word) : (s.setI a).SP = s.SP := rfl
@[simp] theorem State.setI_stack (s : State) (a : Word) : (s.setI a).stack = s.stack := rfl
@[simp] theorem State.setI_DT (s : State) (a : Word) : (s.setI a).DT = s.DT := rfl
@[simp] theorem State.setI_ST (s : State) (a : Word) : (s.setI a).ST = s.ST := rfl
@[simp] theorem State.setI_key (s : State) (a : Word) : (s.setI a).key = s.key := rfl
@[simp] theorem State.setI_fb (s : State) (a : Word) : (s.setI a).fb = s.fb := rfl
@[simp] theorem State.setI_status (s : State) (a : Word) : (s.setI a).status = s.status := rfl
@[simp] theorem State.setI_draws (s : State) (a : Word) : (s.setI a).draws = s.draws := rfl

/-! ### setPc -/

@[simp] theorem State.setPc_mem (s : State) (a : Word) : (s.setPc a).mem = s.mem := rfl
@[simp] theorem State.setPc_V (s : State) (a : Word) : (s.setPc a).V = s.V := rfl
@[simp] theorem State.setPc_I (s : State) (a : Word) : (s.setPc a).I = s.I := rfl
@[simp] theorem State.setPc_pc (s : State) (a : Word) : (s.setPc a).pc = a := rfl
@[simp] theorem State.setPc_SP (s : State) (a : Word) : (s.setPc a).SP = s.SP := rfl
@[simp] theorem State.setPc_stack (s : State) (a : Word) : (s.setPc a).stack = s.stack := rfl
@[simp] theorem State.setPc_DT (s : State) (a : Word) : (s.setPc a).DT = s.DT := rfl
@[simp] theorem State.setPc_ST (s : State) (a : Word) : (s.setPc a).ST = s.ST := rfl
@[simp] theorem State.setPc_key (s : State) (a : Word) : (s.setPc a).key = s.key := rfl
@[simp] theorem State.setPc_fb (s : State) (a : Word) : (s.setPc a).fb = s.fb := rfl
@[simp] theorem State.setPc_status (s : State) (a : Word) : (s.setPc a).status = s.status := rfl
@[simp] theorem State.setPc_draws (s : State) (a : Word) : (s.setPc a).draws = s.draws := rfl

/-! ### setDT -/

@[simp] theorem State.setDT_mem (s : State) (v : Byte) : (s.setDT v).mem = s.mem := rfl
@[simp] theorem State.setDT_V (s : State) (v : Byte) : (s.setDT v).V = s.V := rfl
@[simp] theorem State.setDT_I (s : State) (v : Byte) : (s.setDT v).I = s.I := rfl
@[simp] theorem State.setDT_pc (s : State) (v : Byte) : (s.setDT v).pc = s.pc := rfl
@[simp] theorem State.setDT_SP (s : State) (v : Byte) : (s.setDT v).SP = s.SP := rfl
@[simp] theorem State.setDT_stack (s : State) (v : Byte) : (s.setDT v).stack = s.stack := rfl
@[simp] theorem State.setDT_DT (s : State) (v : Byte) : (s.setDT v).DT = v := rfl
@[simp] theorem State.setDT_ST (s : State) (v : Byte) : (s.setDT v).ST = s.ST := rfl
@[simp] theorem State.setDT_key (s : State) (v : Byte) : (s.setDT v).key = s.key := rfl
@[simp] theorem State.setDT_fb (s : State) (v : Byte) : (s.setDT v).fb = s.fb := rfl
@[simp] theorem State.setDT_status (s : State) (v : Byte) : (s.setDT v).status = s.status := rfl
@[simp] theorem State.setDT_draws (s : State) (v : Byte) : (s.setDT v).draws = s.draws := rfl

/-! ### setST -/

@[simp] theorem State.setST_mem (s : State) (v : Byte) : (s.setST v).mem = s.mem := rfl
@[simp] theorem State.setST_V (s : State) (v : Byte) : (s.setST v).V = s.V := rfl
@[simp] theorem State.setST_I (s : State) (v : Byte) : (s.setST v).I = s.I := rfl
@[simp] theorem State.setST_pc (s : State) (v : Byte) : (s.setST v).pc = s.pc := rfl
@[simp] theorem State.setST_SP (s : State) (v : Byte) : (s.setST v).SP = s.SP := rfl
@[simp] theorem State.setST_stack (s : State) (v : Byte) : (s.setST v).stack = s.stack := rfl
@[simp] theorem State.setST_DT (s : State) (v : Byte) : (s.setST v).DT = s.DT := rfl
@[simp] theorem State.setST_ST (s : State) (v : Byte) : (s.setST v).ST = v := rfl
@[simp] theorem State.setST_key (s : State) (v : Byte) : (s.setST v).key = s.key := rfl
@[simp] theorem State.setST_fb (s : State) (v : Byte) : (s.setST v).fb = s.fb := rfl
@[simp] theorem State.setST_status (s : State) (v : Byte) : (s.setST v).status = s.status := rfl
@[simp] theorem State.setST_draws (s : State) (v : Byte) : (s.setST v).draws = s.draws := rfl

/-! ### setFb -/

@[simp] theorem State.setFb_mem (s : State) (fb : Framebuffer) : (s.setFb fb).mem = s.mem := rfl
@[simp] theorem State.setFb_V (s : State) (fb : Framebuffer) : (s.setFb fb).V = s.V := rfl
@[simp] theorem State.setFb_I (s : State) (fb : Framebuffer) : (s.setFb fb).I = s.I := rfl
@[simp] theorem State.setFb_pc (s : State) (fb : Framebuffer) : (s.setFb fb).pc = s.pc := rfl
@[simp] theorem State.setFb_SP (s : State) (fb : Framebuffer) : (s.setFb fb).SP = s.SP := rfl
@[simp] theorem State.setFb_stack (s : State) (fb : Framebuffer) : (s.setFb fb).stack = s.stack := rfl
@[simp] theorem State.setFb_DT (s : State) (fb : Framebuffer) : (s.setFb fb).DT = s.DT := rfl
@[simp] theorem State.setFb_ST (s : State) (fb : Framebuffer) : (s.setFb fb).ST = s.ST := rfl
@[simp] theorem State.setFb_key (s : State) (fb : Framebuffer) : (s.setFb fb).key = s.key := rfl
@[simp] theorem State.setFb_fb (s : State) (fb : Framebuffer) : (s.setFb fb).fb = fb := rfl
@[simp] theorem State.setFb_status (s : State) (fb : Framebuffer) : (s.setFb fb).status = s.status := rfl
@[simp] theorem State.setFb_draws (s : State) (fb : Framebuffer) : (s.setFb fb).draws = s.draws := rfl

/-! ### setMem -/

@[simp] theorem State.setMem_mem (s : State) (m : Memory) : (s.setMem m).mem = m := rfl
@[simp] theorem State.setMem_V (s : State) (m : Memory) : (s.setMem m).V = s.V := rfl
@[simp] theorem State.setMem_I (s : State) (m : Memory) : (s.setMem m).I = s.I := rfl
@[simp] theorem State.setMem_pc (s : State) (m : Memory) : (s.setMem m).pc = s.pc := rfl
@[simp] theorem State.setMem_SP (s : State) (m : Memory) : (s.setMem m).SP = s.SP := rfl
@[simp] theorem State.setMem_stack (s : State) (m : Memory) : (s.setMem m).stack = s.stack := rfl
@[simp] theorem State.setMem_DT (s : State) (m : Memory) : (s.setMem m).DT = s.DT := rfl
@[simp] theorem State.setMem_ST (s : State) (m : Memory) : (s.setMem m).ST = s.ST := rfl
@[simp] theorem State.setMem_key (s : State) (m : Memory) : (s.setMem m).key = s.key := rfl
@[simp] theorem State.setMem_fb (s : State) (m : Memory) : (s.setMem m).fb = s.fb := rfl
@[simp] theorem State.setMem_status (s : State) (m : Memory) : (s.setMem m).status = s.status := rfl
@[simp] theorem State.setMem_draws (s : State) (m : Memory) : (s.setMem m).draws = s.draws := rfl

/-! ### setStatus -/

@[simp] theorem State.setStatus_mem (s : State) (st : Status) : (s.setStatus st).mem = s.mem := rfl
@[simp] theorem State.setStatus_V (s : State) (st : Status) : (s.setStatus st).V = s.V := rfl
@[simp] theorem State.setStatus_I (s : State) (st : Status) : (s.setStatus st).I = s.I := rfl
@[simp] theorem State.setStatus_pc (s : State) (st : Status) : (s.setStatus st).pc = s.pc := rfl
@[simp] theorem State.setStatus_SP (s : State) (st : Status) : (s.setStatus st).SP = s.SP := rfl
@[simp] theorem State.setStatus_stack (s : State) (st : Status) : (s.setStatus st).stack = s.stack := rfl
@[simp] theorem State.setStatus_DT (s : State) (st : Status) : (s.setStatus st).DT = s.DT := rfl
@[simp] theorem State.setStatus_ST (s : State) (st : Status) : (s.setStatus st).ST = s.ST := rfl
@[simp] theorem State.setStatus_key (s : State) (st : Status) : (s.setStatus st).key = s.key := rfl
@[simp] theorem State.setStatus_fb (s : State) (st : Status) : (s.setStatus st).fb = s.fb := rfl
@[simp] theorem State.setStatus_status (s : State) (st : Status) : (s.setStatus st).status = st := rfl
@[simp] theorem State.setStatus_draws (s : State) (st : Status) : (s.setStatus st).draws = s.draws := rfl

/-! ### setKey -/

@[simp] theorem State.setKey_mem (s : State) (k : Nat) (b : Bool) : (s.setKey k b).mem = s.mem := rfl
@[simp] theorem State.setKey_V (s : State) (k : Nat) (b : Bool) : (s.setKey k b).V = s.V := rfl
@[simp] theorem State.setKey_I (s : State) (k : Nat) (b : Bool) : (s.setKey k b).I = s.I := rfl
@[simp] theorem State.setKey_pc (s : State) (k : Nat) (b : Bool) : (s.setKey k b).pc = s.pc := rfl
@[simp] theorem State.setKey_SP (s : State) (k : Nat) (b : Bool) : (s.setKey k b).SP = s.SP := rfl
@[simp] theorem State.setKey_stack (s : State) (k : Nat) (b : Bool) : (s.setKey k b).stack = s.stack := rfl
@[simp] theorem State.setKey_DT (s : State) (k : Nat) (b : Bool) : (s.setKey k b).DT = s.DT := rfl
@[simp] theorem State.setKey_ST (s : State) (k : Nat) (b : Bool) : (s.setKey k b).ST = s.ST := rfl
@[simp] theorem State.setKey_key (s : State) (k : Nat) (b : Bool) : (s.setKey k b).key = s.key.setIfInBounds k b := rfl
@[simp] theorem State.setKey_fb (s : State) (k : Nat) (b : Bool) : (s.setKey k b).fb = s.fb := rfl
@[simp] theorem State.setKey_status (s : State) (k : Nat) (b : Bool) : (s.setKey k b).status = s.status := rfl
@[simp] theorem State.setKey_draws (s : State) (k : Nat) (b : Bool) : (s.setKey k b).draws = s.draws := rfl

/-! ### countDraw -/

@[simp] theorem State.countDraw_mem (s : State) : (s.countDraw).mem = s.mem := rfl
@[simp] theorem State.countDraw_V (s : State) : (s.countDraw).V = s.V := rfl
@[simp] theorem State.countDraw_I (s : State) : (s.countDraw).I = s.I := rfl
@[simp] theorem State.countDraw_pc (s : State) : (s.countDraw).pc = s.pc := rfl
@[simp] theorem State.countDraw_SP (s : State) : (s.countDraw).SP = s.SP := rfl
@[simp] theorem State.countDraw_stack (s : State) : (s.countDraw).stack = s.stack := rfl
@[simp] theorem State.countDraw_DT (s : State) : (s.countDraw).DT = s.DT := rfl
@[simp] theorem State.countDraw_ST (s : State) : (s.countDraw).ST = s.ST := rfl
@[simp] theorem State.countDraw_key (s : State) : (s.countDraw).key = s.key := rfl
@[simp] theorem State.countDraw_fb (s : State) : (s.countDraw).fb = s.fb := rfl
@[simp] theorem State.countDraw_status (s : State) : (s.countDraw).status = s.status := rfl
@[simp] theorem State.countDraw_draws (s : State) : (s.countDraw).draws = s.draws + 1 := rfl

/-! ### loadBlock -/

@[simp] theorem State.loadBlock_mem (s : State) (x : RegIdx) : (s.loadBlock x).mem = s.mem := rfl
@[simp] theorem State.loadBlock_V (s : State) (x : RegIdx) : (s.loadBlock x).V = loadRegs s.mem s.base (blockSize x) s.V := rfl
@[simp] theorem State.loadBlock_I (s : State) (x : RegIdx) : (s.loadBlock x).I = s.I := rfl
@[simp] theorem State.loadBlock_pc (s : State) (x : RegIdx) : (s.loadBlock x).pc = s.pc := rfl
@[simp] theorem State.loadBlock_SP (s : State) (x : RegIdx) : (s.loadBlock x).SP = s.SP := rfl
@[simp] theorem State.loadBlock_stack (s : State) (x : RegIdx) : (s.loadBlock x).stack = s.stack := rfl
@[simp] theorem State.loadBlock_DT (s : State) (x : RegIdx) : (s.loadBlock x).DT = s.DT := rfl
@[simp] theorem State.loadBlock_ST (s : State) (x : RegIdx) : (s.loadBlock x).ST = s.ST := rfl
@[simp] theorem State.loadBlock_key (s : State) (x : RegIdx) : (s.loadBlock x).key = s.key := rfl
@[simp] theorem State.loadBlock_fb (s : State) (x : RegIdx) : (s.loadBlock x).fb = s.fb := rfl
@[simp] theorem State.loadBlock_status (s : State) (x : RegIdx) : (s.loadBlock x).status = s.status := rfl
@[simp] theorem State.loadBlock_draws (s : State) (x : RegIdx) : (s.loadBlock x).draws = s.draws := rfl

/-! ### advance -/

@[simp] theorem State.advance_mem (s : State) : s.advance.mem = s.mem := rfl
@[simp] theorem State.advance_V (s : State) : s.advance.V = s.V := rfl
@[simp] theorem State.advance_I (s : State) : s.advance.I = s.I := rfl
@[simp] theorem State.advance_pc (s : State) : s.advance.pc = s.pc + 2 := rfl
@[simp] theorem State.advance_SP (s : State) : s.advance.SP = s.SP := rfl
@[simp] theorem State.advance_stack (s : State) : s.advance.stack = s.stack := rfl
@[simp] theorem State.advance_DT (s : State) : s.advance.DT = s.DT := rfl
@[simp] theorem State.advance_ST (s : State) : s.advance.ST = s.ST := rfl
@[simp] theorem State.advance_key (s : State) : s.advance.key = s.key := rfl
@[simp] theorem State.advance_fb (s : State) : s.advance.fb = s.fb := rfl
@[simp] theorem State.advance_status (s : State) : s.advance.status = s.status := rfl
@[simp] theorem State.advance_draws (s : State) : s.advance.draws = s.draws := rfl

/-! ### skipIf -/

@[simp] theorem State.skipIf_mem (s : State) (c : Bool) : (s.skipIf c).mem = s.mem := by cases c <;> rfl
@[simp] theorem State.skipIf_V (s : State) (c : Bool) : (s.skipIf c).V = s.V := by cases c <;> rfl
@[simp] theorem State.skipIf_I (s : State) (c : Bool) : (s.skipIf c).I = s.I := by cases c <;> rfl
@[simp] theorem State.skipIf_pc (s : State) (c : Bool) : (s.skipIf c).pc = if c then s.pc + 2 else s.pc := by cases c <;> rfl
@[simp] theorem State.skipIf_SP (s : State) (c : Bool) : (s.skipIf c).SP = s.SP := by cases c <;> rfl
@[simp] theorem State.skipIf_stack (s : State) (c : Bool) : (s.skipIf c).stack = s.stack := by cases c <;> rfl
@[simp] theorem State.skipIf_DT (s : State) (c : Bool) : (s.skipIf c).DT = s.DT := by cases c <;> rfl
@[simp] theorem State.skipIf_ST (s : State) (c : Bool) : (s.skipIf c).ST = s.ST := by cases c <;> rfl
@[simp] theorem State.skipIf_key (s : State) (c : Bool) : (s.skipIf c).key = s.key := by cases c <;> rfl
@[simp] theorem State.skipIf_fb (s : State) (c : Bool) : (s.skipIf c).fb = s.fb := by cases c <;> rfl
@[simp] theorem State.skipIf_status (s : State) (c : Bool) : (s.skipIf c).status = s.status := by cases c <;> rfl
@[simp] theorem State.skipIf_draws (s : State) (c : Bool) : (s.skipIf c).draws = s.draws := by cases c <;> rfl

/-! ### Registers -/

/-- A register read after a write: the written value at its own index, the old one elsewhere. -/
@[simp] theorem State.readV_writeV (s : State) (x y : RegIdx) (v : Byte) :
    (s.writeV x v).readV y = if y = x then v else s.readV y := by
  simp only [State.readV, State.writeV_V, Vector.getElem_set, Fin.ext_iff, eq_comm]

@[simp] theorem State.readV_writeVF (s : State) (f : Byte) (y : RegIdx) :
    (s.writeVF f).readV y = if y = 15 then f else s.readV y := State.readV_writeV s 15 y f

/-- With x = 15 the flag is what VF holds afterwards (R9). -/
@[simp] theorem State.readV_writeVWithFlag (s : State) (x y : RegIdx) (v f : Byte) :
    (s.writeVWithFlag x v f).readV y = if y = 15 then f else if y = x then v else s.readV y := by
  simp [State.writeVWithFlag]

@[simp] theorem State.readV_setI (s : State) (a : Word) (y : RegIdx) : (s.setI a).readV y = s.readV y := rfl
@[simp] theorem State.readV_setPc (s : State) (a : Word) (y : RegIdx) : (s.setPc a).readV y = s.readV y := rfl
@[simp] theorem State.readV_setDT (s : State) (v : Byte) (y : RegIdx) : (s.setDT v).readV y = s.readV y := rfl
@[simp] theorem State.readV_setST (s : State) (v : Byte) (y : RegIdx) : (s.setST v).readV y = s.readV y := rfl
@[simp] theorem State.readV_setFb (s : State) (fb : Framebuffer) (y : RegIdx) : (s.setFb fb).readV y = s.readV y := rfl
@[simp] theorem State.readV_setMem (s : State) (m : Memory) (y : RegIdx) : (s.setMem m).readV y = s.readV y := rfl
@[simp] theorem State.readV_setStatus (s : State) (st : Status) (y : RegIdx) : (s.setStatus st).readV y = s.readV y := rfl
@[simp] theorem State.readV_setKey (s : State) (k : Nat) (b : Bool) (y : RegIdx) : (s.setKey k b).readV y = s.readV y := rfl
@[simp] theorem State.readV_countDraw (s : State) (y : RegIdx) : (s.countDraw).readV y = s.readV y := rfl
@[simp] theorem State.readV_advance (s : State) (y : RegIdx) : s.advance.readV y = s.readV y := rfl
@[simp] theorem State.readV_skipIf (s : State) (c : Bool) (y : RegIdx) : (s.skipIf c).readV y = s.readV y := by cases c <;> rfl

@[simp] theorem State.writeVF_mem (s : State) (f : Byte) : (s.writeVF f).mem = s.mem := rfl
@[simp] theorem State.writeVF_I (s : State) (f : Byte) : (s.writeVF f).I = s.I := rfl
@[simp] theorem State.writeVF_pc (s : State) (f : Byte) : (s.writeVF f).pc = s.pc := rfl
@[simp] theorem State.writeVF_SP (s : State) (f : Byte) : (s.writeVF f).SP = s.SP := rfl
@[simp] theorem State.writeVF_stack (s : State) (f : Byte) : (s.writeVF f).stack = s.stack := rfl
@[simp] theorem State.writeVF_DT (s : State) (f : Byte) : (s.writeVF f).DT = s.DT := rfl
@[simp] theorem State.writeVF_ST (s : State) (f : Byte) : (s.writeVF f).ST = s.ST := rfl
@[simp] theorem State.writeVF_key (s : State) (f : Byte) : (s.writeVF f).key = s.key := rfl
@[simp] theorem State.writeVF_fb (s : State) (f : Byte) : (s.writeVF f).fb = s.fb := rfl
@[simp] theorem State.writeVF_status (s : State) (f : Byte) : (s.writeVF f).status = s.status := rfl
@[simp] theorem State.writeVF_draws (s : State) (f : Byte) : (s.writeVF f).draws = s.draws := rfl

@[simp] theorem State.writeVWithFlag_mem (s : State) (x : RegIdx) (v f : Byte) : (s.writeVWithFlag x v f).mem = s.mem := rfl
@[simp] theorem State.writeVWithFlag_I (s : State) (x : RegIdx) (v f : Byte) : (s.writeVWithFlag x v f).I = s.I := rfl
@[simp] theorem State.writeVWithFlag_pc (s : State) (x : RegIdx) (v f : Byte) : (s.writeVWithFlag x v f).pc = s.pc := rfl
@[simp] theorem State.writeVWithFlag_SP (s : State) (x : RegIdx) (v f : Byte) : (s.writeVWithFlag x v f).SP = s.SP := rfl
@[simp] theorem State.writeVWithFlag_stack (s : State) (x : RegIdx) (v f : Byte) : (s.writeVWithFlag x v f).stack = s.stack := rfl
@[simp] theorem State.writeVWithFlag_DT (s : State) (x : RegIdx) (v f : Byte) : (s.writeVWithFlag x v f).DT = s.DT := rfl
@[simp] theorem State.writeVWithFlag_ST (s : State) (x : RegIdx) (v f : Byte) : (s.writeVWithFlag x v f).ST = s.ST := rfl
@[simp] theorem State.writeVWithFlag_key (s : State) (x : RegIdx) (v f : Byte) : (s.writeVWithFlag x v f).key = s.key := rfl
@[simp] theorem State.writeVWithFlag_fb (s : State) (x : RegIdx) (v f : Byte) : (s.writeVWithFlag x v f).fb = s.fb := rfl
@[simp] theorem State.writeVWithFlag_status (s : State) (x : RegIdx) (v f : Byte) : (s.writeVWithFlag x v f).status = s.status := rfl
@[simp] theorem State.writeVWithFlag_draws (s : State) (x : RegIdx) (v f : Byte) : (s.writeVWithFlag x v f).draws = s.draws := rfl

end Sys2Proof.Machine
end

