-- ==== Sys2Proof/Laws/Ops.lean ====
section
/-!
SUPPORT. For each shared operation, everything it can do, said once.
-/

namespace Sys2Proof.Machine

/-! ## Range checks -/

theorem checkRange_eq_none {base len : Nat} : checkRange base len = none ↔ len = 0 ∨ base + len ≤ 4096 := by
  unfold checkRange Config.memSize
  split <;> simp <;> omega

theorem checkRange_eq_some {base len : Nat} {e : FatalError} :
    checkRange base len = some e ↔ 0 < len ∧ 4096 < base + len ∧ e = .memOutOfRange (max base 4096) := by
  unfold checkRange Config.memSize
  split
  · next h =>
    rw [Option.some.injEq, eq_comm]
    exact ⟨fun h' => ⟨h.1, by omega, h'⟩, fun h' => h'.2.2⟩
  · next h => simp; omega

/-! ## Fetch -/

theorem State.fetchWord_error {s : State} (h : 4096 ≤ s.pc.toNat + 1) : s.fetchWord = .error (.pcOutOfRange s.pc) :=
  if_pos h

theorem State.fetchWord_ok {s : State} (h : s.pc.toNat + 1 < 4096) :
    s.fetchWord = .ok (wordOfBytes (s.mem.read s.pc.toNat) (s.mem.read (s.pc.toNat + 1))) :=
  if_neg (by simp; omega)

/-- What fetching an instruction can answer: the pc is out of range, or the word matches no row, or it decodes. -/
theorem State.fetchInstr_cases (s : State) :
    (4096 ≤ s.pc.toNat + 1 ∧ s.fetchInstr = .error (.pcOutOfRange s.pc)) ∨
    (s.pc.toNat + 1 < 4096 ∧ ∃ w, s.fetchWord = .ok w ∧
      ((decodeWord w = none ∧ s.fetchInstr = .error (.unsupportedOpcode w)) ∨
       (∃ i, decodeWord w = some i ∧ s.fetchInstr = .ok i))) := by
  by_cases h : 4096 ≤ s.pc.toNat + 1
  · exact .inl ⟨h, by simp [State.fetchInstr, State.fetchWord_error h]⟩
  · refine .inr ⟨by omega, _, State.fetchWord_ok (by omega), ?_⟩
    simp only [State.fetchInstr, State.fetchWord_ok (s := s) (by omega)]
    cases hd : decodeWord (wordOfBytes (s.mem.read s.pc.toNat) (s.mem.read (s.pc.toNat + 1))) with
    | none => exact .inl ⟨rfl, rfl⟩
    | some i => exact .inr ⟨i, rfl, rfl⟩

/-- An instruction is fetched only inside memory. -/
theorem State.fetchInstr_pc {s : State} {i : Instr} (h : s.fetchInstr = .ok i) : s.pc.toNat + 1 < 4096 := by
  rcases s.fetchInstr_cases with ⟨-, h'⟩ | ⟨h', -⟩
  · rw [h] at h'; cases h'
  · exact h'

/-! ## Step -/

theorem step_halted {s : State} {e : FatalError} (h : s.status = .halted e) : step s = .next s := by
  unfold step; rw [h]; rfl

theorem step_error {s : State} {e : FatalError} (h : s.status = .running) (hf : s.fetchInstr = .error e) :
    step s = .next (s.setStatus (.halted e)) := by
  unfold step; rw [h, hf]; rfl

theorem step_ok {s : State} {i : Instr} (h : s.status = .running) (hf : s.fetchInstr = .ok i) : step s = exec i s := by
  unfold step; rw [h, hf]

/-! ## The stack -/

theorem State.push_eq_ok {s t : State} {pc0 a : Word} : s.push pc0 a = .ok t ↔
    ∃ h : s.SP.val < 16, t = { s with stack := s.stack.set s.SP.val a, SP := ⟨s.SP.val + 1, by omega⟩ } := by
  unfold State.push
  split
  · next h => simp [h, eq_comm]
  · next h => simp [h]

theorem State.push_eq_error {s : State} {pc0 a : Word} {e : FatalError} : s.push pc0 a = .error e ↔
    s.SP.val = 16 ∧ e = .stackOverflow pc0 := by
  have := s.SP.isLt
  unfold State.push
  split
  · next h => simp; omega
  · next h => simp only [Except.error.injEq, eq_comm (a := e)]; constructor
              · intro h'; exact ⟨by omega, h'⟩
              · intro h'; exact h'.2

theorem State.pop_eq_ok {s : State} {pc0 : Word} {r : Word × State} : s.pop pc0 = .ok r ↔
    ∃ h : 0 < s.SP.val, r = (s.stack[s.SP.val - 1], { s with SP := ⟨s.SP.val - 1, by omega⟩ }) := by
  unfold State.pop
  split
  · next h => simp [h, eq_comm]
  · next h => simp [h]

theorem State.pop_eq_error {s : State} {pc0 : Word} {e : FatalError} : s.pop pc0 = .error e ↔
    s.SP.val = 0 ∧ e = .stackUnderflow pc0 := by
  unfold State.pop
  split
  · next h => simp; omega
  · next h => simp only [Except.error.injEq, eq_comm (a := e)]; constructor
              · intro h'; exact ⟨by omega, h'⟩
              · intro h'; exact h'.2

/-! ## The keypad -/

theorem State.keyAt_ok {s : State} {v : Byte} (h : v.toNat < 16) : s.keyAt v = .ok s.key[v.toNat] := dif_pos h

theorem State.keyAt_error {s : State} {v : Byte} (h : 16 ≤ v.toNat) : s.keyAt v = .error (.keyIndexOutOfRange v) :=
  dif_neg (by omega)

/-- The scan finds the lowest pressed key. -/
theorem State.lowestPressed_eq_some {s : State} {k : Nat} : s.lowestPressed = some k ↔
    ∃ h : k < 16, s.key[k] = true ∧ ∀ (j : Nat) (hj : j < k), s.key[j]'(by omega) = false := by
  unfold State.lowestPressed
  rw [List.findIdx?_eq_some_iff_getElem]
  simp

theorem State.lowestPressed_eq_none {s : State} : s.lowestPressed = none ↔ ∀ k : Fin 16, s.key[k.val] = false := by
  unfold State.lowestPressed
  rw [List.findIdx?_eq_none_iff]
  simp only [Vector.mem_toList_iff, id_eq, Vector.mem_iff_getElem]
  constructor
  · intro h k; exact h _ ⟨k.val, k.isLt, rfl⟩
  · rintro h _ ⟨i, hi, rfl⟩; exact h ⟨i, hi⟩

/-! ## Register blocks and digits -/

/-- FX65's block: the registers up to the last one loaded hold the memory's bytes, the others are kept. -/
theorem loadRegs_getElem (m : Memory) (base n : Nat) (v : Vector Byte 16) (k : Nat) (hk : k < 16) :
    (loadRegs m base n v)[k] = if k < n then m.read (base + k) else v[k] := by
  induction n with
  | zero => simp [loadRegs]
  | succ n ih =>
    rw [loadRegs, Vector.getElem_setIfInBounds hk, ih]
    by_cases h : n = k
    · subst h; simp
    · simp only [h, if_false]; split <;> split <;> first | rfl | omega

theorem State.readV_loadBlock (s : State) (x y : RegIdx) :
    (s.loadBlock x).readV y = if y ≤ x then s.mem.read (s.I.toNat + y.val) else s.readV y := by
  simp only [State.readV, State.loadBlock_V, loadRegs_getElem, blockSize, State.base, Fin.le_def, Nat.lt_succ_iff]

@[simp] theorem State.block_length (s : State) (x : RegIdx) : (s.block x).length = x.val + 1 := by
  have := x.isLt
  simp [State.block, blockSize]

theorem State.block_getElem (s : State) (x : RegIdx) (k : Nat) (h : k < (s.block x).length) :
    (s.block x)[k] = s.readV ⟨k, by have := x.isLt; simp at h; omega⟩ := by
  simp [State.block, State.readV]

@[simp] theorem bcdDigits_length (v : Byte) : (bcdDigits v).length = 3 := rfl

end Sys2Proof.Machine
end

