-- ==== Sys2Proof/Laws/Commands.lean ====
section
/-!
SUPPORT. The host's commands: what each answers, and a run taken apart into its first command and the rest.
-/

namespace Sys2Proof.Machine

theorem romFits_iff {rom : List Byte} : romFits rom = true ↔ rom.length ≤ 3584 := by simp [romFits]

theorem perform_load_ok {rom : List Byte} (h : rom.length ≤ 3584) (s : State) :
    perform (.load rom) s = .next (.ok, s.copyRom rom) := by
  rw [perform, State.load, if_pos (romFits_iff.2 h)]

theorem perform_load_error {rom : List Byte} (h : 3584 < rom.length) (s : State) :
    perform (.load rom) s = .next (.capacityError, s) := by
  rw [perform, State.load, if_neg fun hf => Nat.not_le.2 h (romFits_iff.1 hf)]

theorem perform_key_ok {k : Nat} (h : k < 16) (b : Bool) (s : State) :
    perform (.key k b) s = .next (.nothing, s.setKey k b) :=
  if_pos (decide_eq_true h)

theorem perform_key_refused {k : Nat} (h : 16 ≤ k) (b : Bool) (s : State) :
    perform (.key k b) s = .refused (.keyIndexNotAdmitted k) :=
  if_neg (by simpa [Command.wellFormed] using h)

theorem perform_step_of_next {s t : State} (h : step s = .next t) : perform .step s = .next (t.stepReply, t) := by
  rw [perform, h]

@[simp] theorem perform_tick (s : State) : perform .tick s = .next (.beep s.beeps, s.tick) := rfl
@[simp] theorem perform_readDisplay (s : State) : perform .readDisplay s = .next (.display s.fb, s) := rfl
@[simp] theorem perform_reset (s : State) : perform .reset s = .next (.nothing, s.resetByHost) := rfl

/-- A run that is not refused: the first command, then the rest from the state it leaves. -/
theorem performAll_cons {c : Command} {cs : List Command} {s t : State} {rs : List Reply} :
    performAll (c :: cs) s = .next (rs, t) ↔
      ∃ r u rs', perform c s = .next (r, u) ∧ performAll cs u = .next (rs', t) ∧ rs = r :: rs' := by
  rw [performAll]
  cases perform c s with
  | fault f => simp
  | refused r => simp
  | next p =>
    obtain ⟨r, u⟩ := p
    cases hu : performAll cs u with
    | fault f => simp [hu]
    | refused q => simp [hu]
    | next q => simp [hu, Prod.ext_iff, eq_comm, and_comm]

/-- R250: one less, and 0 stays 0. -/
theorem tickDown_toNat (v : Byte) : (tickDown v).toNat = v.toNat - 1 := by
  unfold tickDown
  split
  · next h => subst h; rfl
  · next h =>
    have h0 : v.toNat ≠ 0 := fun h' => h (BitVec.eq_of_toNat_eq h')
    have := v.isLt
    rw [BitVec.toNat_sub]
    simp
    omega

end Sys2Proof.Machine
end

