-- ==== Sys2Proof/Laws/Decode.lean ====
section
/-!
SUPPORT. Words, bytes, fields and masks as numbers, and the number each instruction is encoded as.
-/

namespace Sys2Proof

/-! ## Words and bytes -/

theorem toNat_append_add {a b : Nat} (u : BitVec a) (v : BitVec b) : (u ++ v).toNat = u.toNat * 2 ^ b + v.toNat := by
  rw [BitVec.toNat_append, ← Nat.shiftLeft_add_eq_or_of_lt v.isLt, Nat.shiftLeft_eq]

/-- R58: `opcode = hi * 256 + lo`. -/
theorem wordOfBytes_toNat (hi lo : Byte) : (wordOfBytes hi lo).toNat = hi.toNat * 256 + lo.toNat := toNat_append_add hi lo

theorem highByte_toNat (w : Word) : (highByte w).toNat = w.toNat / 256 := by
  have := w.isLt
  simp [highByte, BitVec.extractLsb', Nat.shiftRight_eq_div_pow]
  omega

theorem lowByte_toNat (w : Word) : (lowByte w).toNat = w.toNat % 256 := by
  simp [lowByte, BitVec.extractLsb']

/-- The bytes of a word make the word again (R58). -/
@[simp] theorem wordOfBytes_high_low (w : Word) : wordOfBytes (highByte w) (lowByte w) = w := by
  apply BitVec.eq_of_toNat_eq
  rw [wordOfBytes_toNat, highByte_toNat, lowByte_toNat]
  omega

@[simp] theorem wordBytes_length (w : Word) : (wordBytes w).length = 2 := rfl

/-- Decoding the two bytes of a word, whatever follows them. -/
theorem decode_wordBytes (w : Word) (rest : List Byte) : decode (wordBytes w ++ rest) =
    match decodeWord w with
    | some i => .ok (i, rest)
    | none => .error (.unsupportedOpcode w) := by
  cases h : decodeWord w <;> simp only [wordBytes, List.cons_append, List.nil_append, decode, wordOfBytes_high_low, h]

/-- The table's word is decoded as decodeWord decodes it. -/
theorem decodeTableWord_eq (nbits w : Nat) : decodeTableWord nbits w = decodeWord (tableWord nbits w) := by
  have h := decode_wordBytes (tableWord nbits w) []
  rw [List.append_nil] at h
  unfold decodeTableWord
  rw [h]
  cases decodeWord (tableWord nbits w) <;> rfl

/-! ## Fields (R81) -/

theorem nibbleAt_val (w : Word) (lo : Nat) : (nibbleAt w lo).val = w.toNat / 2 ^ lo % 16 := by
  simp [nibbleAt, BitVec.extractLsb', Nat.shiftRight_eq_div_pow]

@[simp] theorem nibble_toNat (i : Fin 16) : (nibble i).toNat = i.val := rfl

theorem Fields.ofWord_n1 (w : Word) : (Fields.ofWord w).n1.val = w.toNat / 4096 := by
  have := w.isLt
  rw [Fields.ofWord, nibbleAt_val]; omega

theorem Fields.ofWord_x (w : Word) : (Fields.ofWord w).x.val = w.toNat / 256 % 16 := nibbleAt_val w 8

theorem Fields.ofWord_y (w : Word) : (Fields.ofWord w).y.val = w.toNat / 16 % 16 := nibbleAt_val w 4

theorem Fields.ofWord_n (w : Word) : (Fields.ofWord w).n.val = w.toNat % 16 := by
  rw [Fields.ofWord, nibbleAt_val, Nat.pow_zero, Nat.div_one]

theorem Fields.ofWord_nn (w : Word) : (Fields.ofWord w).nn.toNat = w.toNat % 256 := by
  simp [Fields.ofWord, BitVec.extractLsb']

theorem Fields.ofWord_nnn (w : Word) : (Fields.ofWord w).nnn.toNat = w.toNat % 4096 := by
  simp [Fields.ofWord, BitVec.extractLsb']

/-- The fields of a word are well-formed: nn and nnn agree with the fields they overlap. -/
theorem Fields.ofWord_wellFormed (w : Word) : (Fields.ofWord w).wellFormed = true := by
  simp only [Fields.wellFormed, Fields.nnAgrees, Fields.nnnAgrees, Bool.and_eq_true, beq_iff_eq, Fields.ofWord_nn,
    Fields.ofWord_nnn, Fields.ofWord_x, Fields.ofWord_y, Fields.ofWord_n]
  omega

/-! ## The fixed bits as numbers -/

theorem toNat_and_F000 (w : Word) : (w &&& 0xF000#16).toNat = w.toNat / 4096 * 4096 := by
  have h : w &&& 0xF000#16 = (w >>> 12) <<< 12 := by
    ext i hi
    simp
    interval_cases i <;> simp
  have := w.isLt
  rw [h]
  simp [Nat.shiftRight_eq_div_pow, Nat.shiftLeft_eq]
  omega

/-- A mask of the major family's nibble and the k low bits. -/
theorem toNat_high_or_low (w : Word) (k : Nat) (hk : k ≤ 12) :
    (((w >>> 12) <<< 12) ||| w &&& BitVec.ofNat 16 (2 ^ k - 1)).toNat = w.toNat / 4096 * 4096 + w.toNat % 2 ^ k := by
  have hw := w.isLt
  have hpow : 2 ^ k ≤ 2 ^ 12 := Nat.pow_le_pow_right (by decide) hk
  have hlow : (w &&& BitVec.ofNat 16 (2 ^ k - 1)).toNat = w.toNat % 2 ^ k := by
    rw [BitVec.toNat_and, BitVec.toNat_ofNat, Nat.mod_eq_of_lt (by omega), Nat.and_two_pow_sub_one_eq_mod]
  have hhigh : ((w >>> 12) <<< 12).toNat = (w.toNat / 4096) <<< 12 := by
    simp [Nat.shiftRight_eq_div_pow, Nat.shiftLeft_eq]
    omega
  have hlt : w.toNat % 2 ^ k < 2 ^ 12 := Nat.lt_of_lt_of_le (Nat.mod_lt _ (Nat.two_pow_pos k)) hpow
  rw [BitVec.toNat_or, hlow, hhigh, ← Nat.shiftLeft_add_eq_or_of_lt hlt, Nat.shiftLeft_eq]

theorem toNat_and_F00F (w : Word) : (w &&& 0xF00F#16).toNat = w.toNat / 4096 * 4096 + w.toNat % 16 := by
  refine Eq.trans (congrArg BitVec.toNat ?_) (toNat_high_or_low w 4 (by decide))
  ext i hi
  simp
  interval_cases i <;> simp

theorem toNat_and_F0FF (w : Word) : (w &&& 0xF0FF#16).toNat = w.toNat / 4096 * 4096 + w.toNat % 256 := by
  refine Eq.trans (congrArg BitVec.toNat ?_) (toNat_high_or_low w 8 (by decide))
  ext i hi
  simp
  interval_cases i <;> simp

theorem toNat_and_FFFF (w : Word) : (w &&& 0xFFFF#16).toNat = w.toNat := by
  rw [show (0xFFFF#16 : Word) = BitVec.allOnes 16 from rfl, BitVec.and_allOnes]

/-- A row of the table hits the words whose fixed bits have the row's values. -/
theorem OpcodeRow.hits_iff (r : OpcodeRow) (w : Word) : r.hits w = true ↔ (w &&& r.mask).toNat = r.pattern.toNat := by
  rw [OpcodeRow.hits, beq_iff_eq, ← BitVec.toNat_inj]

/-! ## Encodings as numbers (R83, R85) -/

/-- The number whose binary form is an instruction's row of spec/opcode_table.json with the fields filled in. -/
def Instr.number : Instr → Nat
  | .cls => 0x00E0
  | .ret => 0x00EE
  | .jp nnn => 0x1000 + nnn.toNat
  | .call nnn => 0x2000 + nnn.toNat
  | .seImm x nn => 0x3000 + x.val * 256 + nn.toNat
  | .sneImm x nn => 0x4000 + x.val * 256 + nn.toNat
  | .seReg x y => 0x5000 + x.val * 256 + y.val * 16
  | .ldImm x nn => 0x6000 + x.val * 256 + nn.toNat
  | .addImm x nn => 0x7000 + x.val * 256 + nn.toNat
  | .ldReg x y => 0x8000 + x.val * 256 + y.val * 16
  | .orReg x y => 0x8001 + x.val * 256 + y.val * 16
  | .andReg x y => 0x8002 + x.val * 256 + y.val * 16
  | .xorReg x y => 0x8003 + x.val * 256 + y.val * 16
  | .addReg x y => 0x8004 + x.val * 256 + y.val * 16
  | .sub x y => 0x8005 + x.val * 256 + y.val * 16
  | .shr x y => 0x8006 + x.val * 256 + y.val * 16
  | .subn x y => 0x8007 + x.val * 256 + y.val * 16
  | .shl x y => 0x800E + x.val * 256 + y.val * 16
  | .sneReg x y => 0x9000 + x.val * 256 + y.val * 16
  | .ldI nnn => 0xA000 + nnn.toNat
  | .jpV0 nnn => 0xB000 + nnn.toNat
  | .rnd x nn => 0xC000 + x.val * 256 + nn.toNat
  | .drw x y n => 0xD000 + x.val * 256 + y.val * 16 + n.val
  | .skp x => 0xE09E + x.val * 256
  | .sknp x => 0xE0A1 + x.val * 256
  | .ldVDt x => 0xF007 + x.val * 256
  | .ldK x => 0xF00A + x.val * 256
  | .ldDtV x => 0xF015 + x.val * 256
  | .ldStV x => 0xF018 + x.val * 256
  | .addI x => 0xF01E + x.val * 256
  | .ldF x => 0xF029 + x.val * 256
  | .ldB x => 0xF033 + x.val * 256
  | .ldMemV x => 0xF055 + x.val * 256
  | .ldVMem x => 0xF065 + x.val * 256

/-- The encoder's words are those numbers. -/
theorem encode_toNat (i : Instr) : (encode i).toNat = i.number := by
  cases i <;> simp only [encode, Instr.number, toNat_append_add, nibble_toNat] <;> simp <;> omega

end Sys2Proof
end

