-- ==== Sys2Proof/Laws/Display.lean ====
section
/-!
SUPPORT. What drawing a sprite does, pixel by pixel (R111 to R115): a pixel changes exactly when a set bit of the sprite lies
on it, each set bit on its own pixel, and the collision is that some such pixel was on.
-/

namespace Sys2Proof.Machine

@[simp] theorem Framebuffer.pixel_allOff (row : Fin 32) (col : Fin 64) : Framebuffer.pixel Framebuffer.allOff row col = false := by
  simp [Framebuffer.pixel, Framebuffer.allOff]

theorem Framebuffer.pixel_setPixel (fb : Framebuffer) (r r' : Fin 32) (c c' : Fin 64) (b : Bool) :
    Framebuffer.pixel (Framebuffer.setPixel fb r c b) r' c' = if r' = r ∧ c' = c then b else Framebuffer.pixel fb r' c' := by
  have hrow : (Framebuffer.setPixel fb r c b)[r'.val] = if r.val = r'.val then fb[r.val].set c.val b else fb[r'.val] :=
    Vector.getElem_set r.isLt r'.isLt
  have hpix : Framebuffer.pixel (Framebuffer.setPixel fb r c b) r' c' =
      (if r.val = r'.val then fb[r.val].set c.val b else fb[r'.val])[c'.val] :=
    congrArg (fun row : Vector Bool 64 => row[c'.val]) hrow
  rw [hpix]
  by_cases hr : r' = r
  · subst hr
    simp [Vector.getElem_set, Framebuffer.pixel, Fin.ext_iff, eq_comm]
  · have hr' : ¬ r.val = r'.val := fun h => hr (Fin.ext h.symm)
    simp [hr, hr', Framebuffer.pixel]

theorem Framebuffer.eq_of_pixel_eq {fb fb' : Framebuffer} (h : ∀ r c, Framebuffer.pixel fb r c = Framebuffer.pixel fb' r c) : fb = fb' := by
  apply Vector.ext; intro i hi
  apply Vector.ext; intro j hj
  exact h ⟨i, hi⟩ ⟨j, hj⟩

/-- The first k bits of the row byte b drawn from column ox: is one of them set and on this column? -/
def rowLit (ox : Nat) (b : Byte) (k : Nat) (col : Fin 64) : Bool :=
  (List.range k).any fun j => b.getLsbD (7 - j) && spriteCol ox j == col

/-- The rows of a sprite, the first being row r: does one of them have a set bit on this pixel? -/
def spriteLit (oy ox : Nat) : Nat → List Byte → Fin 32 → Fin 64 → Bool
  | _, [], _, _ => false
  | r, b :: bs, row, col => (spriteRow oy r == row && rowLit ox b 8 col) || spriteLit oy ox (r + 1) bs row col

theorem spriteCol_injective (ox : Nat) {j k : Nat} (hj : j < 64) (hk : k < 64) (h : spriteCol ox j = spriteCol ox k) : j = k := by
  simp only [spriteCol, Fin.mk.injEq] at h
  omega

theorem spriteRow_injective (oy : Nat) {r q : Nat} (h : spriteRow oy r = spriteRow oy q) (hq : r ≤ q) (hd : q < r + 32) : r = q := by
  simp only [spriteRow, Fin.mk.injEq] at h
  omega

/-- R112: a column in terms of the offset from the origin. -/
theorem rowLit_iff (ox : Nat) (b : Byte) (col : Fin 64) :
    rowLit ox b 8 col = true ↔ ∃ k, k < 8 ∧ b.getLsbD (7 - k) = true ∧ (ox + k) % 64 = col.val := by
  simp [rowLit, spriteCol, Fin.ext_iff]

/-- A set bit of the sprite lies on a pixel exactly when one of its rows and columns is the pixel's. -/
theorem spriteLit_iff (oy ox r : Nat) (bs : List Byte) (row : Fin 32) (col : Fin 64) :
    spriteLit oy ox r bs row col = true ↔ ∃ q k b, bs[q]? = some b ∧ k < 8 ∧ b.getLsbD (7 - k) = true ∧
      (oy + (r + q)) % 32 = row.val ∧ (ox + k) % 64 = col.val := by
  induction bs generalizing r with
  | nil => simp [spriteLit]
  | cons b bs ih =>
    simp only [spriteLit, Bool.or_eq_true, Bool.and_eq_true, beq_iff_eq, rowLit_iff, ih, spriteRow, Fin.ext_iff]
    constructor
    · rintro (⟨hr, k, hk, hb, hc⟩ | ⟨q, k, b', hq, hk, hb, hr, hc⟩)
      · exact ⟨0, k, b, rfl, hk, hb, hr, hc⟩
      · exact ⟨q + 1, k, b', by simpa using hq, hk, hb, by rw [← hr]; congr 1; omega, hc⟩
    · rintro ⟨q, k, b', hq, hk, hb, hr, hc⟩
      cases q with
      | zero =>
        simp only [List.getElem?_cons_zero, Option.some.injEq] at hq
        subst hq
        exact .inl ⟨hr, k, hk, hb, hc⟩
      | succ q => exact .inr ⟨q, k, b', by simpa using hq, hk, hb, by rw [← hr]; congr 1; omega, hc⟩

/-- Drawing one row: the pixels under its set bits are toggled, and a collision is one of them having been on. -/
theorem drawRow_spec (row : Fin 32) (ox : Nat) (b : Byte) (k : Nat) (hk : k ≤ 64) (c : Canvas) :
    (∀ r' c', Framebuffer.pixel (drawRow row ox b k c).1 r' c' = ((r' == row && rowLit ox b k c') ^^ Framebuffer.pixel c.1 r' c')) ∧
    ((drawRow row ox b k c).2 = true ↔ c.2 = true ∨ ∃ c', rowLit ox b k c' = true ∧ Framebuffer.pixel c.1 row c' = true) := by
  induction k with
  | zero => simp [drawRow, rowLit]
  | succ k ih =>
    obtain ⟨ihp, ihc⟩ := ih (by omega)
    have hlit : ∀ c', rowLit ox b (k + 1) c' = (rowLit ox b k c' || (b.getLsbD (7 - k) && spriteCol ox k == c')) := by
      intro c'; simp [rowLit, List.range_succ]
    have hnot : rowLit ox b k (spriteCol ox k) = false := by
      rw [Bool.eq_false_iff]
      intro h
      simp only [rowLit, List.any_eq_true, List.mem_range, Bool.and_eq_true, beq_iff_eq] at h
      obtain ⟨j, hj, -, h⟩ := h
      have := spriteCol_injective ox (by omega) (by omega) h
      omega
    rw [drawRow, drawBit]
    by_cases hb : b.getLsbD (7 - k) = true
    · simp only [hb, if_true]
      refine ⟨fun r' c' => ?_, ?_⟩
      · rw [Framebuffer.pixel_setPixel, hlit, hb, Bool.true_and]
        by_cases hcol : c' = spriteCol ox k
        · subst hcol
          by_cases hrow : r' = row
          · subst hrow; simp [ihp, hnot]
          · simp [hrow, ihp]
        · have hne : (spriteCol ox k == c') = false := by simpa using fun h => hcol h.symm
          simp [hcol, ihp, hne]
      · rw [Bool.or_eq_true, ihc, ihp]
        simp only [hnot, Bool.and_false, Bool.false_xor, hlit, hb, Bool.true_and, Bool.or_eq_true, beq_iff_eq]
        constructor
        · rintro ((h | ⟨c', h1, h2⟩) | h)
          · exact .inl h
          · exact .inr ⟨c', .inl h1, h2⟩
          · exact .inr ⟨_, .inr rfl, h⟩
        · rintro (h | ⟨c', h1 | h1, h2⟩)
          · exact .inl (.inl h)
          · exact .inl (.inr ⟨c', h1, h2⟩)
          · subst h1; exact .inr h2
    · have hb' : b.getLsbD (7 - k) = false := by simpa using hb
      simp only [hb', Bool.false_eq_true, if_false]
      simp only [hlit, hb', Bool.false_and, Bool.or_false]
      exact ⟨ihp, ihc⟩

/-- R113, R115: drawing a sprite of at most 32 rows. The pixels under its set bits are toggled, and a collision is one of them
having been on before the draw. -/
theorem drawRows_spec (oy ox r : Nat) (bs : List Byte) (h : bs.length ≤ 32) (c : Canvas) :
    (∀ row col, Framebuffer.pixel (drawRows oy ox r bs c).1 row col = (spriteLit oy ox r bs row col ^^ Framebuffer.pixel c.1 row col)) ∧
    ((drawRows oy ox r bs c).2 = true ↔
      c.2 = true ∨ ∃ row col, spriteLit oy ox r bs row col = true ∧ Framebuffer.pixel c.1 row col = true) := by
  induction bs generalizing r c with
  | nil => simp [drawRows, spriteLit]
  | cons b bs ih =>
    simp only [List.length_cons] at h
    obtain ⟨hp, hc⟩ := drawRow_spec (spriteRow oy r) ox b 8 (by omega) c
    obtain ⟨ihp, ihc⟩ := ih (r + 1) (by omega) (drawRow (spriteRow oy r) ox b 8 c)
    have hlater : ∀ col, spriteLit oy ox (r + 1) bs (spriteRow oy r) col = false := by
      intro col
      rw [Bool.eq_false_iff]
      intro hl
      obtain ⟨q, -, b', hq, -, -, hrow, -⟩ := (spriteLit_iff _ _ _ _ _ _).1 hl
      have hq' : q < bs.length := by
        rw [List.getElem?_eq_some_iff] at hq; exact hq.1
      simp only [spriteRow] at hrow
      omega
    refine ⟨fun row col => ?_, ?_⟩
    · rw [drawRows, ihp, hp, spriteLit]
      by_cases hr : row = spriteRow oy r
      · subst hr; simp [hlater]
      · have h1 : (row == spriteRow oy r) = false := by simpa using hr
        have h2 : (spriteRow oy r == row) = false := by simpa using fun h => hr h.symm
        simp [h1, h2]
    · rw [drawRows, ihc, hc]
      simp only [hp, spriteLit, Bool.or_eq_true, Bool.and_eq_true, beq_iff_eq]
      constructor
      · rintro ((h | ⟨col, h1, h2⟩) | ⟨row, col, h1, h2⟩)
        · exact .inl h
        · exact .inr ⟨_, col, .inl ⟨rfl, h1⟩, h2⟩
        · by_cases hr : row = spriteRow oy r
          · subst hr; rw [hlater] at h1; cases h1
          · have h1' : (row == spriteRow oy r) = false := by simpa using hr
            exact .inr ⟨row, col, .inr h1, by simpa [h1'] using h2⟩
      · rintro (h | ⟨row, col, ⟨h0, h1⟩ | h1, h2⟩)
        · exact .inl (.inl h)
        · subst h0; exact .inl (.inr ⟨col, h1, h2⟩)
        · by_cases hr : row = spriteRow oy r
          · subst hr; rw [hlater] at h1; cases h1
          · have h1' : (row == spriteRow oy r) = false := by simpa using hr
            exact .inr ⟨row, col, h1, by simpa [h1'] using h2⟩

@[simp] theorem State.sprite_length (s : State) (n : RowCount) : (s.sprite n).length = n.val := by simp [State.sprite]

end Sys2Proof.Machine
end

