-- ==== Sys2Proof/Laws/Exec.lean ====
section
/-!
SUPPORT. exec's arms as equations, and, for each instruction that can raise, when it answers its new state and when it raises.
-/

namespace Sys2Proof.Machine

/-! ## The arms -/

@[simp] theorem exec_cls (s : State) : exec .cls s = execCls s := rfl
@[simp] theorem exec_ret (s : State) : exec .ret s = execRet s := rfl
@[simp] theorem exec_jp (nnn : Addr12) (s : State) : exec (.jp nnn) s = execJp nnn s := rfl
@[simp] theorem exec_call (nnn : Addr12) (s : State) : exec (.call nnn) s = execCall nnn s := rfl
@[simp] theorem exec_seImm (x : RegIdx) (nn : Byte) (s : State) : exec (.seImm x nn) s = execSeImm x nn s := rfl
@[simp] theorem exec_sneImm (x : RegIdx) (nn : Byte) (s : State) : exec (.sneImm x nn) s = execSneImm x nn s := rfl
@[simp] theorem exec_seReg (x : RegIdx) (y : RegIdx) (s : State) : exec (.seReg x y) s = execSeReg x y s := rfl
@[simp] theorem exec_ldImm (x : RegIdx) (nn : Byte) (s : State) : exec (.ldImm x nn) s = execLdImm x nn s := rfl
@[simp] theorem exec_addImm (x : RegIdx) (nn : Byte) (s : State) : exec (.addImm x nn) s = execAddImm x nn s := rfl
@[simp] theorem exec_ldReg (x : RegIdx) (y : RegIdx) (s : State) : exec (.ldReg x y) s = execLdReg x y s := rfl
@[simp] theorem exec_orReg (x : RegIdx) (y : RegIdx) (s : State) : exec (.orReg x y) s = execOr x y s := rfl
@[simp] theorem exec_andReg (x : RegIdx) (y : RegIdx) (s : State) : exec (.andReg x y) s = execAnd x y s := rfl
@[simp] theorem exec_xorReg (x : RegIdx) (y : RegIdx) (s : State) : exec (.xorReg x y) s = execXor x y s := rfl
@[simp] theorem exec_addReg (x : RegIdx) (y : RegIdx) (s : State) : exec (.addReg x y) s = execAddReg x y s := rfl
@[simp] theorem exec_sub (x : RegIdx) (y : RegIdx) (s : State) : exec (.sub x y) s = execSub x y s := rfl
@[simp] theorem exec_shr (x : RegIdx) (y : RegIdx) (s : State) : exec (.shr x y) s = execShr x y s := rfl
@[simp] theorem exec_subn (x : RegIdx) (y : RegIdx) (s : State) : exec (.subn x y) s = execSubn x y s := rfl
@[simp] theorem exec_shl (x : RegIdx) (y : RegIdx) (s : State) : exec (.shl x y) s = execShl x y s := rfl
@[simp] theorem exec_sneReg (x : RegIdx) (y : RegIdx) (s : State) : exec (.sneReg x y) s = execSneReg x y s := rfl
@[simp] theorem exec_ldI (nnn : Addr12) (s : State) : exec (.ldI nnn) s = execLdI nnn s := rfl
@[simp] theorem exec_jpV0 (nnn : Addr12) (s : State) : exec (.jpV0 nnn) s = execJpV0 nnn s := rfl
@[simp] theorem exec_rnd (x : RegIdx) (nn : Byte) (s : State) : exec (.rnd x nn) s = execRnd x nn s := rfl
@[simp] theorem exec_drw (x : RegIdx) (y : RegIdx) (n : RowCount) (s : State) : exec (.drw x y n) s = execDrw x y n s := rfl
@[simp] theorem exec_skp (x : RegIdx) (s : State) : exec (.skp x) s = execSkp x s := rfl
@[simp] theorem exec_sknp (x : RegIdx) (s : State) : exec (.sknp x) s = execSknp x s := rfl
@[simp] theorem exec_ldVDt (x : RegIdx) (s : State) : exec (.ldVDt x) s = execLdVDt x s := rfl
@[simp] theorem exec_ldK (x : RegIdx) (s : State) : exec (.ldK x) s = execLdK x s := rfl
@[simp] theorem exec_ldDtV (x : RegIdx) (s : State) : exec (.ldDtV x) s = execLdDtV x s := rfl
@[simp] theorem exec_ldStV (x : RegIdx) (s : State) : exec (.ldStV x) s = execLdStV x s := rfl
@[simp] theorem exec_addI (x : RegIdx) (s : State) : exec (.addI x) s = execAddI x s := rfl
@[simp] theorem exec_ldF (x : RegIdx) (s : State) : exec (.ldF x) s = execLdF x s := rfl
@[simp] theorem exec_ldB (x : RegIdx) (s : State) : exec (.ldB x) s = execLdB x s := rfl
@[simp] theorem exec_ldMemV (x : RegIdx) (s : State) : exec (.ldMemV x) s = execLdMemV x s := rfl
@[simp] theorem exec_ldVMem (x : RegIdx) (s : State) : exec (.ldVMem x) s = execLdVMem x s := rfl

/-! ## The instructions that can raise -/

theorem execRet_ok {s : State} (h : 0 < s.SP.val) : execRet s =
    .next { s with pc := s.stack[s.SP.val - 1], SP := ⟨s.SP.val - 1, by omega⟩ } := by
  have hp : s.advance.pop s.pc = .ok (s.stack[s.SP.val - 1], { s.advance with SP := ⟨s.SP.val - 1, by omega⟩ }) :=
    State.pop_eq_ok.2 ⟨h, rfl⟩
  rw [execRet, hp]; rfl

theorem execRet_error {s : State} (h : s.SP.val = 0) : execRet s = .next (s.setStatus (.halted (.stackUnderflow s.pc))) := by
  have hp : s.advance.pop s.pc = .error (.stackUnderflow s.pc) := State.pop_eq_error.2 ⟨h, rfl⟩
  rw [execRet, hp]; rfl

theorem execCall_ok {s : State} (nnn : Addr12) (h : s.SP.val < 16) : execCall nnn s =
    .next { s with stack := s.stack.set s.SP.val (s.pc + 2), SP := ⟨s.SP.val + 1, by omega⟩, pc := zextAddr nnn } := by
  have hp : s.advance.push s.pc s.advance.pc =
      .ok { s.advance with stack := s.stack.set s.SP.val (s.pc + 2), SP := ⟨s.SP.val + 1, by omega⟩ } :=
    State.push_eq_ok.2 ⟨h, rfl⟩
  rw [execCall, hp]; rfl

theorem execCall_error {s : State} (nnn : Addr12) (h : s.SP.val = 16) : execCall nnn s =
    .next (s.setStatus (.halted (.stackOverflow s.pc))) := by
  have hp : s.advance.push s.pc s.advance.pc = .error (.stackOverflow s.pc) := State.push_eq_error.2 ⟨h, rfl⟩
  rw [execCall, hp]; rfl

theorem execDrw_ok {s : State} (x y : RegIdx) {n : RowCount} (h : n.val = 0 ∨ s.I.toNat + n.val ≤ 4096) : execDrw x y n s =
    .next ((s.advance.setFb (s.drawn x y n).1).writeVF (collisionFlag (s.drawn x y n).2)) := by
  rw [execDrw, show checkRange s.base n.val = none from checkRange_eq_none.2 h]

theorem execDrw_error {s : State} (x y : RegIdx) {n : RowCount} (h0 : 0 < n.val) (h : 4096 < s.I.toNat + n.val) :
    execDrw x y n s = .next (s.setStatus (.halted (.memOutOfRange (max s.I.toNat 4096)))) := by
  rw [execDrw, show checkRange s.base n.val = some _ from checkRange_eq_some.2 ⟨h0, h, rfl⟩]; rfl

theorem execLdB_ok {s : State} (x : RegIdx) (h : s.I.toNat + 3 ≤ 4096) : execLdB x s =
    .next (s.advance.setMem (s.mem.writeBytes s.I.toNat (bcdDigits (s.readV x)))) := by
  rw [execLdB, show checkRange s.base 3 = none from checkRange_eq_none.2 (.inr h)]; rfl

theorem execLdB_error {s : State} (x : RegIdx) (h : 4096 < s.I.toNat + 3) : execLdB x s =
    .next (s.setStatus (.halted (.memOutOfRange (max s.I.toNat 4096)))) := by
  rw [execLdB, show checkRange s.base 3 = some _ from checkRange_eq_some.2 ⟨by decide, h, rfl⟩]; rfl

theorem execLdMemV_ok {s : State} (x : RegIdx) (h : s.I.toNat + x.val < 4096) : execLdMemV x s =
    .next (s.advance.setMem (s.mem.writeBytes s.I.toNat (s.block x))) := by
  rw [execLdMemV, show checkRange s.base (blockSize x) = none from checkRange_eq_none.2 (.inr h)]; rfl

theorem execLdMemV_error {s : State} (x : RegIdx) (h : 4096 ≤ s.I.toNat + x.val) : execLdMemV x s =
    .next (s.setStatus (.halted (.memOutOfRange (max s.I.toNat 4096)))) := by
  rw [execLdMemV, show checkRange s.base (blockSize x) = some _ from checkRange_eq_some.2 ⟨Nat.succ_pos _, Nat.lt_succ_of_le h, rfl⟩]; rfl

theorem execLdVMem_ok {s : State} (x : RegIdx) (h : s.I.toNat + x.val < 4096) :
    execLdVMem x s = .next (s.advance.loadBlock x) := by
  rw [execLdVMem, show checkRange s.base (blockSize x) = none from checkRange_eq_none.2 (.inr h)]

theorem execLdVMem_error {s : State} (x : RegIdx) (h : 4096 ≤ s.I.toNat + x.val) : execLdVMem x s =
    .next (s.setStatus (.halted (.memOutOfRange (max s.I.toNat 4096)))) := by
  rw [execLdVMem, show checkRange s.base (blockSize x) = some _ from checkRange_eq_some.2 ⟨Nat.succ_pos _, Nat.lt_succ_of_le h, rfl⟩]; rfl

theorem execSkp_ok {s : State} (x : RegIdx) (h : (s.readV x).toNat < 16) : execSkp x s =
    .next (s.advance.skipIf s.key[(s.readV x).toNat]) := by
  rw [execSkp, State.keyAt_ok h]; rfl

theorem execSkp_error {s : State} (x : RegIdx) (h : 16 ≤ (s.readV x).toNat) : execSkp x s =
    .next (s.setStatus (.halted (.keyIndexOutOfRange (s.readV x)))) := by
  rw [execSkp, State.keyAt_error h]; rfl

theorem execSknp_ok {s : State} (x : RegIdx) (h : (s.readV x).toNat < 16) : execSknp x s =
    .next (s.advance.skipIf (!s.key[(s.readV x).toNat])) := by
  rw [execSknp, State.keyAt_ok h]; rfl

theorem execSknp_error {s : State} (x : RegIdx) (h : 16 ≤ (s.readV x).toNat) : execSknp x s =
    .next (s.setStatus (.halted (.keyIndexOutOfRange (s.readV x)))) := by
  rw [execSknp, State.keyAt_error h]; rfl

/-! ## FX0A -/

theorem execLdK_pressed {s : State} (x : RegIdx) {k : Nat} (h : s.lowestPressed = some k) :
    execLdK x s = .next (s.advance.writeV x (BitVec.ofNat 8 k)) := by rw [execLdK, h]

theorem execLdK_waits {s : State} (x : RegIdx) (h : s.lowestPressed = none) : execLdK x s = .next s := by
  rw [execLdK, h]; rfl

end Sys2Proof.Machine
end

