-- ==== Sys2Proof/Laws/PerInstr.lean ====
section
/-!
SUPPORT. Per instruction: its encoding hits its own row of the opcode table, and the row makes the instruction back from the
fields of that word (R83, R85).
-/

namespace Sys2Proof.Laws.EncodesInItsRow

/-- Some row of the table with the instruction's mnemonic hits its encoding and builds the instruction from its fields. -/
def Statement (i : Instr) : Prop :=
  ∃ r ∈ opcodeTable, r.mnemonic = i.mnemonic ∧ r.hits (encode i) = true ∧ r.build (Fields.ofWord (encode i)) = i

/-- A row whose fixed bits the encoding has, as numbers. -/
theorem of_row {i : Instr} (r : OpcodeRow) (hr : r ∈ opcodeTable) (hm : r.mnemonic = i.mnemonic)
    (hh : (encode i &&& r.mask).toNat = r.pattern.toNat) (hb : r.build (Fields.ofWord (encode i)) = i) : Statement i :=
  ⟨r, hr, hm, (r.hits_iff _).2 hh, hb⟩

theorem cls : Statement .cls := by
  exact of_row ⟨"CLS", 0x00E0#16, 0xFFFF#16, fun _ => .cls⟩
    (by simp [opcodeTable, opcodeRows0to5]) rfl rfl rfl

theorem ret : Statement .ret := by
  exact of_row ⟨"RET", 0x00EE#16, 0xFFFF#16, fun _ => .ret⟩
    (by simp [opcodeTable, opcodeRows0to5]) rfl rfl rfl

theorem jp (nnn : Addr12) : Statement (.jp nnn) := by
  have hw := encode_toNat (.jp nnn)
  rw [Instr.number] at hw
  refine of_row ⟨"JP", 0x1000#16, 0xF000#16, fun f => .jp f.nnn⟩
    (by simp [opcodeTable, opcodeRows0to5]) rfl ((toNat_and_F000 _).trans ?_) ?_
  · change _ = 0x1000; omega
  · simp only [Instr.jp.injEq, ← BitVec.toNat_inj, Fields.ofWord_nnn]; omega

theorem call (nnn : Addr12) : Statement (.call nnn) := by
  have hw := encode_toNat (.call nnn)
  rw [Instr.number] at hw
  refine of_row ⟨"CALL", 0x2000#16, 0xF000#16, fun f => .call f.nnn⟩
    (by simp [opcodeTable, opcodeRows0to5]) rfl ((toNat_and_F000 _).trans ?_) ?_
  · change _ = 0x2000; omega
  · simp only [Instr.call.injEq, ← BitVec.toNat_inj, Fields.ofWord_nnn]; omega

theorem seImm (x : RegIdx) (nn : Byte) : Statement (.seImm x nn) := by
  have hw := encode_toNat (.seImm x nn)
  rw [Instr.number] at hw
  refine of_row ⟨"SE_IMM", 0x3000#16, 0xF000#16, fun f => .seImm f.x f.nn⟩
    (by simp [opcodeTable, opcodeRows0to5]) rfl ((toNat_and_F000 _).trans ?_) ?_
  · change _ = 0x3000; omega
  · simp only [Instr.seImm.injEq, Fin.ext_iff, ← BitVec.toNat_inj, Fields.ofWord_x, Fields.ofWord_nn]; omega

theorem sneImm (x : RegIdx) (nn : Byte) : Statement (.sneImm x nn) := by
  have hw := encode_toNat (.sneImm x nn)
  rw [Instr.number] at hw
  refine of_row ⟨"SNE_IMM", 0x4000#16, 0xF000#16, fun f => .sneImm f.x f.nn⟩
    (by simp [opcodeTable, opcodeRows0to5]) rfl ((toNat_and_F000 _).trans ?_) ?_
  · change _ = 0x4000; omega
  · simp only [Instr.sneImm.injEq, Fin.ext_iff, ← BitVec.toNat_inj, Fields.ofWord_x, Fields.ofWord_nn]; omega

theorem seReg (x : RegIdx) (y : RegIdx) : Statement (.seReg x y) := by
  have hw := encode_toNat (.seReg x y)
  rw [Instr.number] at hw
  refine of_row ⟨"SE_REG", 0x5000#16, 0xF00F#16, fun f => .seReg f.x f.y⟩
    (by simp [opcodeTable, opcodeRows0to5]) rfl ((toNat_and_F00F _).trans ?_) ?_
  · change _ = 0x5000; omega
  · simp only [Instr.seReg.injEq, Fin.ext_iff, Fields.ofWord_x, Fields.ofWord_y]; omega

theorem ldImm (x : RegIdx) (nn : Byte) : Statement (.ldImm x nn) := by
  have hw := encode_toNat (.ldImm x nn)
  rw [Instr.number] at hw
  refine of_row ⟨"LD_IMM", 0x6000#16, 0xF000#16, fun f => .ldImm f.x f.nn⟩
    (by simp [opcodeTable, opcodeRows6to7]) rfl ((toNat_and_F000 _).trans ?_) ?_
  · change _ = 0x6000; omega
  · simp only [Instr.ldImm.injEq, Fin.ext_iff, ← BitVec.toNat_inj, Fields.ofWord_x, Fields.ofWord_nn]; omega

theorem addImm (x : RegIdx) (nn : Byte) : Statement (.addImm x nn) := by
  have hw := encode_toNat (.addImm x nn)
  rw [Instr.number] at hw
  refine of_row ⟨"ADD_IMM", 0x7000#16, 0xF000#16, fun f => .addImm f.x f.nn⟩
    (by simp [opcodeTable, opcodeRows6to7]) rfl ((toNat_and_F000 _).trans ?_) ?_
  · change _ = 0x7000; omega
  · simp only [Instr.addImm.injEq, Fin.ext_iff, ← BitVec.toNat_inj, Fields.ofWord_x, Fields.ofWord_nn]; omega

theorem ldReg (x : RegIdx) (y : RegIdx) : Statement (.ldReg x y) := by
  have hw := encode_toNat (.ldReg x y)
  rw [Instr.number] at hw
  refine of_row ⟨"LD_REG", 0x8000#16, 0xF00F#16, fun f => .ldReg f.x f.y⟩
    (by simp [opcodeTable, opcodeRows8]) rfl ((toNat_and_F00F _).trans ?_) ?_
  · change _ = 0x8000; omega
  · simp only [Instr.ldReg.injEq, Fin.ext_iff, Fields.ofWord_x, Fields.ofWord_y]; omega

theorem orReg (x : RegIdx) (y : RegIdx) : Statement (.orReg x y) := by
  have hw := encode_toNat (.orReg x y)
  rw [Instr.number] at hw
  refine of_row ⟨"OR", 0x8001#16, 0xF00F#16, fun f => .orReg f.x f.y⟩
    (by simp [opcodeTable, opcodeRows8]) rfl ((toNat_and_F00F _).trans ?_) ?_
  · change _ = 0x8001; omega
  · simp only [Instr.orReg.injEq, Fin.ext_iff, Fields.ofWord_x, Fields.ofWord_y]; omega

theorem andReg (x : RegIdx) (y : RegIdx) : Statement (.andReg x y) := by
  have hw := encode_toNat (.andReg x y)
  rw [Instr.number] at hw
  refine of_row ⟨"AND", 0x8002#16, 0xF00F#16, fun f => .andReg f.x f.y⟩
    (by simp [opcodeTable, opcodeRows8]) rfl ((toNat_and_F00F _).trans ?_) ?_
  · change _ = 0x8002; omega
  · simp only [Instr.andReg.injEq, Fin.ext_iff, Fields.ofWord_x, Fields.ofWord_y]; omega

theorem xorReg (x : RegIdx) (y : RegIdx) : Statement (.xorReg x y) := by
  have hw := encode_toNat (.xorReg x y)
  rw [Instr.number] at hw
  refine of_row ⟨"XOR", 0x8003#16, 0xF00F#16, fun f => .xorReg f.x f.y⟩
    (by simp [opcodeTable, opcodeRows8]) rfl ((toNat_and_F00F _).trans ?_) ?_
  · change _ = 0x8003; omega
  · simp only [Instr.xorReg.injEq, Fin.ext_iff, Fields.ofWord_x, Fields.ofWord_y]; omega

theorem addReg (x : RegIdx) (y : RegIdx) : Statement (.addReg x y) := by
  have hw := encode_toNat (.addReg x y)
  rw [Instr.number] at hw
  refine of_row ⟨"ADD_REG", 0x8004#16, 0xF00F#16, fun f => .addReg f.x f.y⟩
    (by simp [opcodeTable, opcodeRows8]) rfl ((toNat_and_F00F _).trans ?_) ?_
  · change _ = 0x8004; omega
  · simp only [Instr.addReg.injEq, Fin.ext_iff, Fields.ofWord_x, Fields.ofWord_y]; omega

theorem sub (x : RegIdx) (y : RegIdx) : Statement (.sub x y) := by
  have hw := encode_toNat (.sub x y)
  rw [Instr.number] at hw
  refine of_row ⟨"SUB", 0x8005#16, 0xF00F#16, fun f => .sub f.x f.y⟩
    (by simp [opcodeTable, opcodeRows8]) rfl ((toNat_and_F00F _).trans ?_) ?_
  · change _ = 0x8005; omega
  · simp only [Instr.sub.injEq, Fin.ext_iff, Fields.ofWord_x, Fields.ofWord_y]; omega

theorem shr (x : RegIdx) (y : RegIdx) : Statement (.shr x y) := by
  have hw := encode_toNat (.shr x y)
  rw [Instr.number] at hw
  refine of_row ⟨"SHR", 0x8006#16, 0xF00F#16, fun f => .shr f.x f.y⟩
    (by simp [opcodeTable, opcodeRows8]) rfl ((toNat_and_F00F _).trans ?_) ?_
  · change _ = 0x8006; omega
  · simp only [Instr.shr.injEq, Fin.ext_iff, Fields.ofWord_x, Fields.ofWord_y]; omega

theorem subn (x : RegIdx) (y : RegIdx) : Statement (.subn x y) := by
  have hw := encode_toNat (.subn x y)
  rw [Instr.number] at hw
  refine of_row ⟨"SUBN", 0x8007#16, 0xF00F#16, fun f => .subn f.x f.y⟩
    (by simp [opcodeTable, opcodeRows8]) rfl ((toNat_and_F00F _).trans ?_) ?_
  · change _ = 0x8007; omega
  · simp only [Instr.subn.injEq, Fin.ext_iff, Fields.ofWord_x, Fields.ofWord_y]; omega

theorem shl (x : RegIdx) (y : RegIdx) : Statement (.shl x y) := by
  have hw := encode_toNat (.shl x y)
  rw [Instr.number] at hw
  refine of_row ⟨"SHL", 0x800E#16, 0xF00F#16, fun f => .shl f.x f.y⟩
    (by simp [opcodeTable, opcodeRows8]) rfl ((toNat_and_F00F _).trans ?_) ?_
  · change _ = 0x800E; omega
  · simp only [Instr.shl.injEq, Fin.ext_iff, Fields.ofWord_x, Fields.ofWord_y]; omega

theorem sneReg (x : RegIdx) (y : RegIdx) : Statement (.sneReg x y) := by
  have hw := encode_toNat (.sneReg x y)
  rw [Instr.number] at hw
  refine of_row ⟨"SNE_REG", 0x9000#16, 0xF00F#16, fun f => .sneReg f.x f.y⟩
    (by simp [opcodeTable, opcodeRows9toD]) rfl ((toNat_and_F00F _).trans ?_) ?_
  · change _ = 0x9000; omega
  · simp only [Instr.sneReg.injEq, Fin.ext_iff, Fields.ofWord_x, Fields.ofWord_y]; omega

theorem ldI (nnn : Addr12) : Statement (.ldI nnn) := by
  have hw := encode_toNat (.ldI nnn)
  rw [Instr.number] at hw
  refine of_row ⟨"LD_I", 0xA000#16, 0xF000#16, fun f => .ldI f.nnn⟩
    (by simp [opcodeTable, opcodeRows9toD]) rfl ((toNat_and_F000 _).trans ?_) ?_
  · change _ = 0xA000; omega
  · simp only [Instr.ldI.injEq, ← BitVec.toNat_inj, Fields.ofWord_nnn]; omega

theorem jpV0 (nnn : Addr12) : Statement (.jpV0 nnn) := by
  have hw := encode_toNat (.jpV0 nnn)
  rw [Instr.number] at hw
  refine of_row ⟨"JP_V0", 0xB000#16, 0xF000#16, fun f => .jpV0 f.nnn⟩
    (by simp [opcodeTable, opcodeRows9toD]) rfl ((toNat_and_F000 _).trans ?_) ?_
  · change _ = 0xB000; omega
  · simp only [Instr.jpV0.injEq, ← BitVec.toNat_inj, Fields.ofWord_nnn]; omega

theorem rnd (x : RegIdx) (nn : Byte) : Statement (.rnd x nn) := by
  have hw := encode_toNat (.rnd x nn)
  rw [Instr.number] at hw
  refine of_row ⟨"RND", 0xC000#16, 0xF000#16, fun f => .rnd f.x f.nn⟩
    (by simp [opcodeTable, opcodeRows9toD]) rfl ((toNat_and_F000 _).trans ?_) ?_
  · change _ = 0xC000; omega
  · simp only [Instr.rnd.injEq, Fin.ext_iff, ← BitVec.toNat_inj, Fields.ofWord_x, Fields.ofWord_nn]; omega

theorem drw (x : RegIdx) (y : RegIdx) (n : RowCount) : Statement (.drw x y n) := by
  have hw := encode_toNat (.drw x y n)
  rw [Instr.number] at hw
  refine of_row ⟨"DRW", 0xD000#16, 0xF000#16, fun f => .drw f.x f.y f.n⟩
    (by simp [opcodeTable, opcodeRows9toD]) rfl ((toNat_and_F000 _).trans ?_) ?_
  · change _ = 0xD000; omega
  · simp only [Instr.drw.injEq, Fin.ext_iff, Fields.ofWord_x, Fields.ofWord_y, Fields.ofWord_n]; omega

theorem skp (x : RegIdx) : Statement (.skp x) := by
  have hw := encode_toNat (.skp x)
  rw [Instr.number] at hw
  refine of_row ⟨"SKP", 0xE09E#16, 0xF0FF#16, fun f => .skp f.x⟩
    (by simp [opcodeTable, opcodeRowsEF]) rfl ((toNat_and_F0FF _).trans ?_) ?_
  · change _ = 0xE09E; omega
  · simp only [Instr.skp.injEq, Fin.ext_iff, Fields.ofWord_x]; omega

theorem sknp (x : RegIdx) : Statement (.sknp x) := by
  have hw := encode_toNat (.sknp x)
  rw [Instr.number] at hw
  refine of_row ⟨"SKNP", 0xE0A1#16, 0xF0FF#16, fun f => .sknp f.x⟩
    (by simp [opcodeTable, opcodeRowsEF]) rfl ((toNat_and_F0FF _).trans ?_) ?_
  · change _ = 0xE0A1; omega
  · simp only [Instr.sknp.injEq, Fin.ext_iff, Fields.ofWord_x]; omega

theorem ldVDt (x : RegIdx) : Statement (.ldVDt x) := by
  have hw := encode_toNat (.ldVDt x)
  rw [Instr.number] at hw
  refine of_row ⟨"LD_V_DT", 0xF007#16, 0xF0FF#16, fun f => .ldVDt f.x⟩
    (by simp [opcodeTable, opcodeRowsEF]) rfl ((toNat_and_F0FF _).trans ?_) ?_
  · change _ = 0xF007; omega
  · simp only [Instr.ldVDt.injEq, Fin.ext_iff, Fields.ofWord_x]; omega

theorem ldK (x : RegIdx) : Statement (.ldK x) := by
  have hw := encode_toNat (.ldK x)
  rw [Instr.number] at hw
  refine of_row ⟨"LD_K", 0xF00A#16, 0xF0FF#16, fun f => .ldK f.x⟩
    (by simp [opcodeTable, opcodeRowsEF]) rfl ((toNat_and_F0FF _).trans ?_) ?_
  · change _ = 0xF00A; omega
  · simp only [Instr.ldK.injEq, Fin.ext_iff, Fields.ofWord_x]; omega

theorem ldDtV (x : RegIdx) : Statement (.ldDtV x) := by
  have hw := encode_toNat (.ldDtV x)
  rw [Instr.number] at hw
  refine of_row ⟨"LD_DT_V", 0xF015#16, 0xF0FF#16, fun f => .ldDtV f.x⟩
    (by simp [opcodeTable, opcodeRowsEF]) rfl ((toNat_and_F0FF _).trans ?_) ?_
  · change _ = 0xF015; omega
  · simp only [Instr.ldDtV.injEq, Fin.ext_iff, Fields.ofWord_x]; omega

theorem ldStV (x : RegIdx) : Statement (.ldStV x) := by
  have hw := encode_toNat (.ldStV x)
  rw [Instr.number] at hw
  refine of_row ⟨"LD_ST_V", 0xF018#16, 0xF0FF#16, fun f => .ldStV f.x⟩
    (by simp [opcodeTable, opcodeRowsEF]) rfl ((toNat_and_F0FF _).trans ?_) ?_
  · change _ = 0xF018; omega
  · simp only [Instr.ldStV.injEq, Fin.ext_iff, Fields.ofWord_x]; omega

theorem addI (x : RegIdx) : Statement (.addI x) := by
  have hw := encode_toNat (.addI x)
  rw [Instr.number] at hw
  refine of_row ⟨"ADD_I", 0xF01E#16, 0xF0FF#16, fun f => .addI f.x⟩
    (by simp [opcodeTable, opcodeRowsEF]) rfl ((toNat_and_F0FF _).trans ?_) ?_
  · change _ = 0xF01E; omega
  · simp only [Instr.addI.injEq, Fin.ext_iff, Fields.ofWord_x]; omega

theorem ldF (x : RegIdx) : Statement (.ldF x) := by
  have hw := encode_toNat (.ldF x)
  rw [Instr.number] at hw
  refine of_row ⟨"LD_F", 0xF029#16, 0xF0FF#16, fun f => .ldF f.x⟩
    (by simp [opcodeTable, opcodeRowsEF]) rfl ((toNat_and_F0FF _).trans ?_) ?_
  · change _ = 0xF029; omega
  · simp only [Instr.ldF.injEq, Fin.ext_iff, Fields.ofWord_x]; omega

theorem ldB (x : RegIdx) : Statement (.ldB x) := by
  have hw := encode_toNat (.ldB x)
  rw [Instr.number] at hw
  refine of_row ⟨"LD_B", 0xF033#16, 0xF0FF#16, fun f => .ldB f.x⟩
    (by simp [opcodeTable, opcodeRowsEF]) rfl ((toNat_and_F0FF _).trans ?_) ?_
  · change _ = 0xF033; omega
  · simp only [Instr.ldB.injEq, Fin.ext_iff, Fields.ofWord_x]; omega

theorem ldMemV (x : RegIdx) : Statement (.ldMemV x) := by
  have hw := encode_toNat (.ldMemV x)
  rw [Instr.number] at hw
  refine of_row ⟨"LD_MEM_V", 0xF055#16, 0xF0FF#16, fun f => .ldMemV f.x⟩
    (by simp [opcodeTable, opcodeRowsEF]) rfl ((toNat_and_F0FF _).trans ?_) ?_
  · change _ = 0xF055; omega
  · simp only [Instr.ldMemV.injEq, Fin.ext_iff, Fields.ofWord_x]; omega

theorem ldVMem (x : RegIdx) : Statement (.ldVMem x) := by
  have hw := encode_toNat (.ldVMem x)
  rw [Instr.number] at hw
  refine of_row ⟨"LD_V_MEM", 0xF065#16, 0xF0FF#16, fun f => .ldVMem f.x⟩
    (by simp [opcodeTable, opcodeRowsEF]) rfl ((toNat_and_F0FF _).trans ?_) ?_
  · change _ = 0xF065; omega
  · simp only [Instr.ldVMem.injEq, Fin.ext_iff, Fields.ofWord_x]; omega

end Sys2Proof.Laws.EncodesInItsRow
end

