-- ==== Sys2Proof/Tests/Slice0.lean ====
section
/-!
SUPPORT. The model's own tests, each about one term, one word or one step. Expected results come from the encodings of
spec/30_encoding.md R85 and from the vectors of spec/95_test_vectors.md (named V1 to V7 and E1 to E9 there), and never
from a run of the model. At the end, for every obligation with hypotheses, a witness that they can be met, each clause
at a boundary of its range.
-/

namespace Sys2Proof.Tests

open Sys2Proof.Machine Sys2Proof.Claims

/-! ## WellFormed refuses ill-formed terms -/

/-- R81: nn is not y * 16 + n. -/
theorem test_wellFormed_refuses_nn : Fields.wellFormed ⟨5, 1, 2, 3, 0x24, 0x124⟩ = false := by decide

/-- R81: nnn is not x * 256 + nn. -/
theorem test_wellFormed_refuses_nnn : Fields.wellFormed ⟨5, 1, 2, 3, 0x23, 0x223⟩ = false := by decide

/-- R81: the fields of 0x5123. -/
theorem test_wellFormed_accepts_fields : Fields.wellFormed ⟨5, 1, 2, 3, 0x23, 0x123⟩ = true := by decide

/-- R264: key 16 does not exist, key 15 does. -/
theorem test_wellFormed_refuses_key : Command.wellFormed (.key 16 true) = false ∧ Command.wellFormed (.key 15 true) = true := by
  decide

/-- R73: 3585 bytes do not fit, 3584 do. -/
theorem test_romFits_refuses_long_rom :
    romFits (List.replicate 3585 0) = false ∧ romFits (List.replicate 3584 0) = true := by
  simp only [romFits, List.length_replicate]
  decide

/-! ## Decoding words written out bit by bit from R85 -/

theorem test_decode_families_0_to_5 :
    decodeWord 0b0000000011100000#16 = some .cls ∧ decodeWord 0b0000000011101110#16 = some .ret ∧
    decodeWord 0b0001001000110100#16 = some (.jp 0x234) ∧ decodeWord 0b0010111111111110#16 = some (.call 0xFFE) ∧
    decodeWord 0b0011101001000010#16 = some (.seImm 10 0x42) ∧ decodeWord 0b0100001110000001#16 = some (.sneImm 3 0x81) ∧
    decodeWord 0b0101000111100000#16 = some (.seReg 1 14) := by
  decide

theorem test_decode_families_6_and_7 :
    decodeWord 0b0110101000101111#16 = some (.ldImm 10 0x2F) ∧ decodeWord 0b0111010111111110#16 = some (.addImm 5 0xFE) := by
  decide

theorem test_decode_family_8 :
    decodeWord 0b1000000100100000#16 = some (.ldReg 1 2) ∧ decodeWord 0b1000001100010001#16 = some (.orReg 3 1) ∧
    decodeWord 0b1000010001010010#16 = some (.andReg 4 5) ∧ decodeWord 0b1000011001110011#16 = some (.xorReg 6 7) ∧
    decodeWord 0b1000111111100100#16 = some (.addReg 15 14) ∧ decodeWord 0b1000100010010101#16 = some (.sub 8 9) ∧
    decodeWord 0b1000101010110110#16 = some (.shr 10 11) ∧ decodeWord 0b1000110011010111#16 = some (.subn 12 13) ∧
    decodeWord 0b1000000111111110#16 = some (.shl 1 15) := by
  decide

theorem test_decode_families_9_to_D :
    decodeWord 0b1001011000010000#16 = some (.sneReg 6 1) ∧ decodeWord 0b1010000100100011#16 = some (.ldI 0x123) ∧
    decodeWord 0b1011001100000001#16 = some (.jpV0 0x301) ∧ decodeWord 0b1100001100001111#16 = some (.rnd 3 0x0F) ∧
    decodeWord 0b1101000000010101#16 = some (.drw 0 1 5) := by
  decide

theorem test_decode_families_E_and_F :
    decodeWord 0b1110010110011110#16 = some (.skp 5) ∧ decodeWord 0b1110011010100001#16 = some (.sknp 6) ∧
    decodeWord 0b1111000100000111#16 = some (.ldVDt 1) ∧ decodeWord 0b1111001100001010#16 = some (.ldK 3) ∧
    decodeWord 0b1111010100010101#16 = some (.ldDtV 5) ∧ decodeWord 0b1111010000011000#16 = some (.ldStV 4) ∧
    decodeWord 0b1111001000011110#16 = some (.addI 2) ∧ decodeWord 0b1111100000101001#16 = some (.ldF 8) ∧
    decodeWord 0b1111011100110011#16 = some (.ldB 7) ∧ decodeWord 0b1111101101010101#16 = some (.ldMemV 11) ∧
    decodeWord 0b1111111101100101#16 = some (.ldVMem 15) := by
  decide

/-- V1: words next to a row of the table match none (R87). -/
theorem test_decode_rejects_reserved_words :
    ([0x0000, 0x0123, 0x00E1, 0x5121, 0x9128, 0x8008, 0x8018, 0x800F, 0xE000, 0xE19F, 0xF000, 0xF1FF] : List Word).map decodeWord =
      List.replicate 12 none := by
  decide

/-- R58, R80: two bytes, high byte first; the rest is handed back; one byte is no instruction. -/
theorem test_decode_bytes : decode [0x60, 0x7A, 0x01] = .ok (.ldImm 0 0x7A, [0x01]) ∧ decode [0x60] = .error .truncated ∧
    decode [0x51, 0x21] = .error (.unsupportedOpcode 0x5121) := by
  decide

theorem test_encode_bytes : encodeBytes (.shr 1 2) = [0x81, 0x26] ∧ encodeBytes .ret = [0x00, 0xEE] := by decide

/-- The words as spec/opcode_table.json numbers their bits. -/
theorem test_decodeTableWord : decodeTableWord 16 0xD015 = some (.drw 0 1 5) ∧ decodeTableWord 16 0x5121 = none := by decide

/-! ## One step -/

/-- The state after one step in which the word is fetched where s fetches next. -/
def after (w : Nat) (s : State) : Option State :=
  match step (s.withFetchWord 16 w) with
  | .next t => some t
  | .fault _ | .refused _ => none

/-- The reply and the state after a command. -/
def command (c : Command) (s : State) : Option (Reply × State) :=
  match perform c s with
  | .next p => some p
  | .fault _ | .refused _ => none

/-- The spec's S0 with two registers given (spec/95_test_vectors.md section 0). -/
def s0 (v0 v1 : Byte := 0) : State := (State.reset.writeV 0 v0).writeV 1 v1

/-- Bytes of memory given. -/
def withBytes (s : State) (a : Nat) (bs : List Byte) : State := s.setMem (s.mem.writeBytes a bs)

/-- A number of occupied stack slots given. -/
def withSP (s : State) (n : Fin 17) : State := { s with SP := n }

/-- A pixel switched on. -/
def withPixel (s : State) (row : Fin 32) (col : Fin 64) : State := s.setFb (Framebuffer.setPixel s.fb row col true)

/-- What V2's vectors look at: the pixels of a list, and VF. -/
def pixelsAndVF (ps : List (Fin 32 × Fin 64)) (t : State) : List Bool × Byte :=
  (ps.map fun p => Framebuffer.pixel t.fb p.1 p.2, t.readV 15)

/-- V1: the last full word of memory is fetched. -/
theorem test_fetch_last_word : (after 0x1234 (s0.setPc 0xFFE)).map (fun t => (t.pc, t.status)) = some (0x234, .running) := by
  decide

/-- V1: at 0xFFF no word is left. -/
theorem test_fetch_past_end : step (s0.setPc 0xFFF) = .next ((s0.setPc 0xFFF).setStatus (.halted (.pcOutOfRange 0xFFF))) := by
  rfl

/-- V1: 5XYN needs N = 0; pc stays. -/
theorem test_unsupported_opcode :
    (after 0x5121 s0).map (fun t => (t.pc, t.status)) = some (0x200, .halted (.unsupportedOpcode 0x5121)) := by
  decide

/-- R56, R57: the first and the last byte of FONT, and the bytes after it. -/
theorem test_font : (s0.mem.read 0, s0.mem.read 0x4F, s0.mem.read 0x50) = (0xF0, 0x80, 0x00) := by decide

/-! ### Display (V2) -/

theorem test_cls : (after 0x00E0 (withPixel (withPixel s0 0 0) 31 63)).map (fun t => (pixelsAndVF [(0, 0), (31, 63)] t, t.pc)) =
    some (([false, false], 0), 0x202) := by
  decide

/-- The row wraps from column 63 to column 0. -/
theorem test_drw_wraps_columns : (after 0xD011 (withBytes ((s0 63 0).setI 0x300) 0x300 [0xFF])).map
    (pixelsAndVF [(0, 63), (0, 0), (0, 6), (0, 7), (0, 62)]) = some ([true, true, true, false, false], 0) := by
  decide

/-- Rows wrap too; a collision in the first row is not cleared by the second. -/
theorem test_drw_wraps_rows_and_collides : (after 0xD012 (withBytes (withPixel ((s0 0 31).setI 0x300) 31 0) 0x300 [0x80, 0x80])).map
    (pixelsAndVF [(31, 0), (0, 0), (1, 0)]) = some ([false, true, false], 1) := by
  decide

/-! ### Stack and control (V3) -/

theorem test_ret : (after 0x00EE (withSP { s0 with stack := s0.stack.set 0 0x206 } 1)).map
    (fun t => (t.pc, t.SP, t.stack[0])) = some (0x206, 0, 0x206) := by
  decide

theorem test_ret_underflow :
    (after 0x00EE s0).map (fun t => (t.pc, t.status)) = some (0x200, .halted (.stackUnderflow 0x200)) := by
  decide

theorem test_jp : (after 0x1FFF s0).map (·.pc) = some 0xFFF := by decide

theorem test_call_last_slot : (after 0x2300 (withSP s0 15)).map (fun t => (t.pc, t.SP, t.stack[15])) = some (0x300, 16, 0x202) := by
  decide

theorem test_call_overflow : (after 0x2300 (withSP s0 16)).map (fun t => (t.pc, t.SP, t.status)) =
    some (0x200, 16, .halted (.stackOverflow 0x200)) := by
  decide

theorem test_jpV0_does_not_wrap : (after 0xBFFF (s0 0xFF 0)).map (·.pc) = some 0x10FE := by decide

theorem test_seImm_taken : (after 0x3142 (s0 0 0x42)).map (·.pc) = some 0x204 := by decide
theorem test_seImm_past_end : (after 0x3000 (s0.setPc 0xFFE)).map (·.pc) = some 0x1002 := by decide
theorem test_sneImm_taken : (after 0x4143 (s0 0 0x42)).map (·.pc) = some 0x204 := by decide
theorem test_sneImm_not_taken : (after 0x4142 (s0 0 0x42)).map (·.pc) = some 0x202 := by decide
theorem test_seReg_not_taken : (after 0x5010 (s0 7 8)).map (·.pc) = some 0x202 := by decide
theorem test_seReg_same : (after 0x5110 (s0 7 8)).map (·.pc) = some 0x204 := by decide
theorem test_sneReg_taken : (after 0x9010 (s0 7 8)).map (·.pc) = some 0x204 := by decide
theorem test_sneReg_same : (after 0x9110 (s0 7 8)).map (·.pc) = some 0x202 := by decide

/-! ### Registers and arithmetic (V4) -/

/-- V[0], VF and pc after a step. -/
def v0VFpc (t : State) : Byte × Byte × Word := (t.readV 0, t.readV 15, t.pc)

theorem test_ldImm : (after 0x6A42 s0).map (fun t => (t.readV 10, t.pc)) = some (0x42, 0x202) := by decide
theorem test_addImm_wraps_without_flag : (after 0x7002 ((s0 0xFF 0).writeVF 7)).map v0VFpc = some (1, 7, 0x202) := by decide
theorem test_ldReg : (after 0x8010 (s0 1 9)).map v0VFpc = some (9, 0, 0x202) := by decide
theorem test_or : (after 0x8011 ((s0 0xF0 0x0F).writeVF 7)).map v0VFpc = some (0xFF, 7, 0x202) := by decide
theorem test_and : (after 0x8012 ((s0 0xF0 0x3C).writeVF 7)).map v0VFpc = some (0x30, 7, 0x202) := by decide
theorem test_xor : (after 0x8013 ((s0 0xFF 0x0F).writeVF 7)).map v0VFpc = some (0xF0, 7, 0x202) := by decide
theorem test_addReg_carry : (after 0x8014 (s0 0xC8 0x38)).map v0VFpc = some (0x00, 1, 0x202) := by decide
theorem test_addReg_flag_wins : (after 0x8F14 ((s0 0 1).writeVF 0xFF)).map v0VFpc = some (0, 1, 0x202) := by decide
theorem test_sub_borrow : (after 0x8015 (s0 0x00 0x01)).map v0VFpc = some (0xFF, 0, 0x202) := by decide
theorem test_sub_equal : (after 0x8015 (s0 0x05 0x05)).map v0VFpc = some (0x00, 1, 0x202) := by decide
theorem test_shr_ignores_y : (after 0x8016 (s0 0x81 0x22)).map v0VFpc = some (0x40, 1, 0x202) := by decide
theorem test_shr_flag_wins : (after 0x8FF6 (s0.writeVF 2)).map v0VFpc = some (0, 0, 0x202) := by decide
theorem test_subn_borrow : (after 0x8017 (s0 0x05 0x03)).map v0VFpc = some (0xFE, 0, 0x202) := by decide
theorem test_subn_no_borrow : (after 0x8017 (s0 0x03 0x05)).map v0VFpc = some (0x02, 1, 0x202) := by decide
theorem test_shl_ignores_y : (after 0x801E (s0 0x81 0x22)).map v0VFpc = some (0x02, 1, 0x202) := by decide
theorem test_shl_flag_wins : (after 0x8FFE (s0.writeVF 0x80)).map v0VFpc = some (0, 1, 0x202) := by decide

/-- V4's `rand8() = AB`: the draw is an argument of rndWithDraw. -/
theorem test_rnd : rndWithDraw 0xAB 0 0x0F s0 = .next (((s0 0x0B 0).setPc 0x202).countDraw) := by rfl

/-- The step draws a byte: nothing is said of its value. -/
theorem test_rnd_step : (after 0xC30F s0).map (fun t => (t.pc, t.draws)) = some (0x202, 1) := by decide

/-! ### Index register and memory (V5) -/

theorem test_ldI : (after 0xA123 s0).map (fun t => (t.I, t.pc)) = some (0x0123, 0x202) := by decide
theorem test_addI_wraps : (after 0xF01E ((s0 1 0).setI 0xFFFF)).map (fun t => (t.I, t.readV 15)) = some (0, 0) := by decide
theorem test_addI_past_fff : (after 0xF01E ((s0 1 0).setI 0x0FFF)).map (·.I) = some 0x1000 := by decide
theorem test_ldF_digit : (after 0xF029 (s0 0x0A 0)).map (·.I) = some 0x0032 := by decide
theorem test_ldF_not_masked : (after 0xF029 (s0 0xFF 0)).map (·.I) = some 0x04FB := by decide

/-- The n bytes at an address, and I. -/
def bytesAndI (a n : Nat) (t : State) : List Byte × Word := (t.mem.readBytes a n, t.I)

theorem test_ldB : (after 0xF033 ((s0 234 0).setI 0x300)).map (bytesAndI 0x300 3) = some ([2, 3, 4], 0x300) := by decide

theorem test_ldB_out_of_range : (after 0xF033 ((s0 1 0).setI 0xFFE)).map (fun t => (t.mem.read 0xFFE, t.status)) =
    some (0, .halted (.memOutOfRange 0x1000)) := by
  decide

theorem test_ldMemV : (after 0xF155 ((s0 0x12 2).setI 0)).map (bytesAndI 0 3) = some ([0x12, 2, 0x90], 0) := by decide

theorem test_ldMemV_out_of_range : (after 0xFF55 ((s0 1 2).setI 0xFF1)).map (fun t => (t.mem.read 0xFF1, t.status)) =
    some (0, .halted (.memOutOfRange 0x1000)) := by
  decide

theorem test_ldVMem : (after 0xF165 (withBytes ((s0 7 8).setI 0x300) 0x300 [2, 3, 4])).map
    (fun t => (t.readV 0, t.readV 1, t.readV 2, t.I)) = some (2, 3, 0, 0x300) := by
  decide

theorem test_ldVMem_out_of_range : (after 0xF065 (s0.setI 0x1234)).map (·.status) = some (.halted (.memOutOfRange 0x1234)) := by
  decide

/-! ### Keypad and timers (V6) -/

theorem test_skp : (after 0xE09E ((s0 10 0).setKey 10 true)).map (·.pc) = some 0x204 := by decide
theorem test_skp_no_such_key : (after 0xE09E (s0 0x10 0)).map (·.status) = some (.halted (.keyIndexOutOfRange 0x10)) := by decide
theorem test_sknp : (after 0xE0A1 ((s0 10 0).setKey 10 true)).map (·.pc) = some 0x202 := by decide
theorem test_sknp_no_such_key : (after 0xE0A1 (s0 0xFF 0)).map (·.status) = some (.halted (.keyIndexOutOfRange 0xFF)) := by decide
theorem test_ldK_waits : (after 0xF10A (s0 0 5)).map (fun t => (t.readV 1, t.pc)) = some (5, 0x200) := by decide
theorem test_ldK_lowest : (after 0xF10A ((s0.setKey 9 true).setKey 3 true)).map (fun t => (t.readV 1, t.pc)) = some (3, 0x202) := by
  decide
theorem test_ldVDt : (after 0xF107 (s0.setDT 0x3C)).map (fun t => (t.readV 1, t.DT)) = some (0x3C, 0x3C) := by decide
theorem test_ldDtV : (after 0xF115 (s0 0 0x3C)).map (fun t => (t.DT, t.ST)) = some (0x3C, 0) := by decide
theorem test_ldStV : (after 0xF118 (s0 0 1)).map (fun t => (t.DT, t.ST, t.beeps)) = some (0, 1, true) := by decide

/-! ### Host commands (V7) -/

theorem test_tick_beeps : command .tick ((s0.setDT 5).setST 1) = some (.beep true, (s0.setDT 4).setST 0) := by decide
theorem test_tick_floor : command .tick s0 = some (.beep false, s0) := by decide
theorem test_key_refused : perform (.key 16 true) s0 = .refused (.keyIndexNotAdmitted 16) := by rfl
theorem test_load : command (.load [0x51, 0x21]) s0 = some (.ok, withBytes s0 0x200 [0x51, 0x21]) := by decide

/-- STEP while Halted repeats the error. -/
theorem test_halted_repeats : (command .step ((s0 1 2).setStatus (.halted (.stackOverflow 0x200)))).map (·.1) =
    some (.fatal (.stackOverflow 0x200)) := by
  decide

/-- R230: the codes and infos that the host tells apart. -/
theorem test_error_codes : [Reply.capacityError, .fatal (.unsupportedOpcode 0x5121), .fatal (.stackOverflow 0x200),
      .fatal (.stackUnderflow 0x200), .fatal (.pcOutOfRange 0xFFF), .fatal (.memOutOfRange 0x1000),
      .fatal (.keyIndexOutOfRange 0x10), .ok].map Reply.error =
    [some (1, none), some (2, some 0x5121), some (3, some 0x200), some (4, some 0x200), some (5, some 0xFFF),
      some (6, some 0x1000), some (7, some 0x10), none] := by
  decide

/-- RESET leaves the state after construction. -/
theorem test_reset : command .reset ((s0 1 2).setStatus (.halted (.stackOverflow 0x200))) = some (.nothing, State.reset) := by
  decide

/-! ## Witnesses: the hypotheses of every obligation can be met, each clause at a boundary -/

/-- S0 with a word in memory at pc. -/
def fetching (w : Word) (s : State) : State := s.setMem (s.mem.writeBytes s.pc.toNat (wordBytes w))

theorem witness_EncodeOfDecodeIsTheWord : decodeWord 0x8FFE = some (.shl 15 15) := by decide

/-- R87's first and last words. -/
theorem witness_UnmatchedWordsAreExactlyTheListed :
    (s0.status = .running ∧ s0.pc.toNat + 1 < 4096 ∧ unmatched (wordAt s0).toNat = true) ∧
    (let s := fetching 0xFFFF (s0.setPc 0xFFE); s.pc.toNat + 1 < 4096 ∧ unmatched (wordAt s).toNat = true) := by
  decide

theorem witness_OpcodeRowsAreDisjoint :
    (opcodeTable.get ⟨1, by decide⟩).hits 0x00EE = true ∧ opcodeTable.reverse.Perm opcodeTable :=
  ⟨by decide, List.reverse_perm _⟩

/-- At the last full word of memory. -/
theorem witness_StepRunsTheDecodedInstruction :
    let s := fetching 0x1234 (s0.setPc 0xFFE)
    s.status = .running ∧ Fetches s (.jp 0x234) := by
  exact ⟨rfl, by decide, by decide⟩

theorem witness_FetchRaisesPcOutOfRange :
    (s0.setPc 0xFFE).pc.toNat + 1 < 4096 ∧ 4096 ≤ (s0.setPc 0xFFF).pc.toNat + 1 ∧ (s0.setPc 0xFFF).status = .running := by
  decide

theorem witness_HaltedStepChangesNothing :
    (s0.setStatus (.halted (.stackOverflow 0x200))).status = .halted (.stackOverflow 0x200) := by
  decide

/-- S0 fetches 0x0000. -/
theorem witness_FatalErrorsArePrecise : ∃ t, s0.status = .running ∧ step s0 = .next t ∧
    t.status = .halted (.unsupportedOpcode 0) :=
  ⟨s0.setStatus (.halted (.unsupportedOpcode 0)), rfl, rfl, rfl⟩

/-- Each of the errors is met by some Running state: at fetch, at decode, and by each checking instruction. -/
theorem witness_StepRaisesExactlyTheListedErrors :
    (s0.setPc 0xFFF).status = .running ∧ StepError (s0.setPc 0xFFF) (.pcOutOfRange 0xFFF) ∧
    StepError s0 (.unsupportedOpcode 0) ∧
    StepError (withSP (fetching 0x2300 s0) 16) (.stackOverflow 0x200) ∧ StepError (fetching 0x00EE s0) (.stackUnderflow 0x200) ∧
    StepError (fetching 0xD012 (s0.setI 0xFFF)) (.memOutOfRange 0x1000) ∧
    StepError (fetching 0xF033 (s0.setI 0xFFE)) (.memOutOfRange 0x1000) ∧
    StepError (fetching 0xF155 (s0.setI 0xFFF)) (.memOutOfRange 0x1000) ∧
    StepError (fetching 0xF065 (s0.setI 0x1234)) (.memOutOfRange 0x1234) ∧
    StepError (fetching 0xE09E (s0 16 0)) (.keyIndexOutOfRange 16) ∧ StepError (fetching 0xE0A1 (s0 0xFF 0)) (.keyIndexOutOfRange 0xFF) :=
  ⟨rfl, .inl ⟨by decide, rfl⟩, .inr (.inl ⟨by decide, by decide, rfl⟩),
    .inr (.inr ⟨.call 0x300, ⟨by decide, by decide⟩, by decide, rfl⟩),
    .inr (.inr ⟨.ret, ⟨by decide, by decide⟩, by decide, rfl⟩),
    .inr (.inr ⟨.drw 0 1 2, ⟨by decide, by decide⟩, by decide, by decide, rfl⟩),
    .inr (.inr ⟨.ldB 0, ⟨by decide, by decide⟩, by decide, rfl⟩),
    .inr (.inr ⟨.ldMemV 1, ⟨by decide, by decide⟩, by decide, rfl⟩),
    .inr (.inr ⟨.ldVMem 0, ⟨by decide, by decide⟩, by decide, rfl⟩),
    .inr (.inr ⟨.skp 0, ⟨by decide, by decide⟩, by decide, rfl⟩),
    .inr (.inr ⟨.sknp 0, ⟨by decide, by decide⟩, by decide, rfl⟩)⟩

/-- pc at its bound, with a slot at its bound. -/
def atBounds : State := { s0 with pc := 0x10FE, stack := s0.stack.set 0 0x1000 }

theorem witness_StepKeepsInvariant : atBounds.Inv ∧ ∃ t, step atBounds = .next t :=
  ⟨⟨rfl, by decide, by decide⟩, _, rfl⟩

theorem witness_CommandsKeepInvariant : atBounds.Inv ∧ ∃ rs t, performAll [.tick, .key 15 true, .load [1], .step, .reset] atBounds = .next (rs, t) :=
  ⟨⟨rfl, by decide, by decide⟩, _, _, rfl⟩

theorem witness_InstructionsChangeOnlyWhatTheTableNames :
    ∃ t, s0.status = .running ∧ exec (.addReg 0 1) s0 = .next t ∧ t.status = .running :=
  ⟨_, rfl, rfl, rfl⟩

theorem witness_SoundTimerIsWrittenByTwoAndReadByTick :
    (∃ t, exec (.ldStV 0) s0 = .next t) ∧ (∃ t, exec (.ldDtV 0) s0 = .next t ∧ ∀ x, Instr.ldDtV 0 ≠ .ldStV x) ∧
    (∃ r t, perform .tick (s0.setST 1) = .next (r, t)) ∧ (∃ r t, perform .step (fetching 0xF018 s0) = .next (r, t)) ∧
    ∃ r t, Command.key 15 true ≠ .tick ∧ Command.key 15 true ≠ .reset ∧ perform (.key 15 true) s0 = .next (r, t) :=
  ⟨⟨_, rfl⟩, ⟨_, rfl, fun _ h => by cases h⟩, ⟨_, _, rfl⟩, ⟨_, _, rfl⟩, _, _, by decide, by decide, rfl⟩

/-- The slot at the pointer, and a step that pushes onto it. -/
theorem witness_StaleStackSlotsAreNeverObserved :
    ∃ t, (withSP (fetching 0x2300 s0) 15).SP.val ≤ (15 : Fin 16).val ∧ step (withSP (fetching 0x2300 s0) 15) = .next t :=
  ⟨_, by decide, rfl⟩

/-- A sprite that ends at the last byte of memory. -/
theorem witness_DrawXorsTheSpriteAndOrsTheCollision :
    let s := withPixel (withBytes (s0.setI 0xFFD) 0xFFD [0x80, 0x80, 0x80]) 0 0
    (1 ≤ (3 : RowCount).val ∧ s.I.toNat + (3 : RowCount).val - 1 < 4096) ∧
    (Lit s 0 1 3 0 0 ∧ Framebuffer.pixel s.fb 0 0 = true) ∧ ¬ Lit s 0 1 3 0 1 ∧
    ∀ row col, ¬ Lit (s0.setI 0x300) 0 1 1 row col := by
  have clear : ∀ k, k < 8 → (s0.mem.read 0x300).getLsbD (7 - k) = false := by decide
  refine ⟨by decide, ⟨⟨0, 0, by decide, by decide, by decide, by decide, by decide⟩, by decide⟩, ?_, ?_⟩
  · rintro ⟨r, k, hr, hk, hb, -, hc⟩
    have h1 : k = 1 := by
      have hx : (s0.readV 0).toNat = 0 := by decide
      change ((s0.readV 0).toNat % 64 + k) % 64 = 1 at hc
      omega
    subst h1
    have hr' : r < 3 := hr
    interval_cases r <;> revert hb <;> decide
  · rintro row col ⟨r, k, hr, hk, hb, -⟩
    have hr' : r = 0 := by have h1 : r < 1 := hr; omega
    subst hr'
    change (s0.mem.read 0x300).getLsbD (7 - k) = true at hb
    rw [clear k hk] at hb
    cases hb

theorem witness_DrawOutOfRangeRaises :
    0 < (2 : RowCount).val ∧ 4096 ≤ (s0.setI 0xFFF).I.toNat + (2 : RowCount).val - 1 := by
  decide

theorem witness_DrawTwiceRestoresTheFramebuffer :
    (0 : RegIdx) ≠ 15 ∧ (1 : RegIdx) ≠ 15 ∧ (s0.setI 0xFF1).I.toNat + (15 : RowCount).val ≤ 4096 ∧ (0 : RowCount).val = 0 := by
  decide

theorem witness_ReturnPopsThePc :
    (withSP s0 1).SP.val = (0 : Fin 16).val + 1 ∧ (withSP s0 16).SP.val = (15 : Fin 16).val + 1 ∧ s0.SP.val = 0 ∧
    (∀ nnn, Instr.ret ≠ .call nnn) ∧ ∃ t, exec .ret (withSP s0 1) = .next t :=
  ⟨rfl, rfl, rfl, fun _ h => (by cases h), _, rfl⟩

theorem witness_JumpSetsThePc : (0xFFF : Addr12).toNat = 0xFFF ∧ (0x200 : Addr12).toNat = s0.pc.toNat := by decide

theorem witness_CallPushesTheReturnAddress :
    (withSP s0 15).SP.val = (15 : Fin 16).val ∧ s0.SP.val = (0 : Fin 16).val ∧ (withSP s0 16).SP.val = 16 := by
  decide

theorem witness_SkipsOnRegisterComparison : (1 : Fin 16) ≠ 0 ∧ (15 : Fin 16) ≠ 0 := by decide

theorem witness_CallsReturnInLifoOrder :
    (withSP s0 14).SP.val ≤ 14 ∧ (withSP s0 16).SP.val = (15 : Fin 16).val + 1 ∧ s0.SP.val = 0 := by
  decide

/-- For the instructions that write a result and the flag: x other than 15. -/
theorem witness_AddRegistersSetsCarry : (14 : RegIdx) ≠ 15 := by decide
theorem witness_SubtractionsSetNotBorrow : (14 : RegIdx) ≠ 15 := by decide
theorem witness_ShiftsIgnoreVyAndSetVF : (14 : RegIdx) ≠ 15 := by decide

theorem witness_RandomIsMaskedForEveryDraw : ∃ nn : Byte, nn = 0 := ⟨0, rfl⟩

theorem witness_StoreBcdWritesThreeDigits :
    ((s0.setI 0xFFD).I.toNat + 2 < 4096 ∧ (s0.setI 0xFFD).mem.wf = true) ∧ 4096 ≤ (s0.setI 0xFFE).I.toNat + 2 := by
  decide

theorem witness_StoreRegistersWritesTheBlock :
    ((s0.setI 0xFF0).I.toNat + (15 : RegIdx).val < 4096 ∧ (s0.setI 0xFF0).mem.wf = true ∧ (15 : RegIdx) ≤ 15) ∧
    4096 ≤ (s0.setI 0xFF1).I.toNat + (15 : RegIdx).val := by
  decide

theorem witness_LoadRegistersReadsTheBlock :
    ((s0.setI 0xFFF).I.toNat + (0 : RegIdx).val < 4096 ∧ (0 : RegIdx) ≤ 0) ∧ 4096 ≤ (s0.setI 0x1000).I.toNat + (0 : RegIdx).val := by
  decide

/-- V0 and V1 are stored at the last two addresses; the second state differs from what the store left in V0, in pc and in the
byte of memory just below them. -/
theorem witness_StoreThenLoadRestoresTheRegisters :
    let s := (s0 1 2).setI 0xFFE
    let u := ((withBytes s 0xFFD [9, 1, 2]).writeV 0 9).setPc 0x300
    s.mem.wf = true ∧ s.I.toNat + (1 : RegIdx).val < 4096 ∧ u.I = s.I ∧ (1 : RegIdx) ≤ 1 ∧
      ∃ t, exec (.ldMemV 1) s = .next t ∧ t.mem.read 0xFFD = 0 ∧ u.mem.read 0xFFD = 9 ∧
        ∀ k, k ≤ (1 : RegIdx).val → u.mem.read (s.I.toNat + k) = t.mem.read (s.I.toNat + k) :=
  ⟨rfl, by decide, rfl, by decide, _, rfl, by decide, by decide, fun k hk => by
    have hk' : k ≤ 1 := hk
    interval_cases k <;> decide⟩

theorem witness_KeySkipsReadTheKeypad :
    ((s0 15 0).readV 0).toNat = (15 : Fin 16).val ∧ 16 ≤ ((s0 16 0).readV 0).toNat := by
  decide

theorem witness_WaitForKeyTakesTheLowestOrRepeats :
    (let s := s0.setKey 15 true; s.key[(15 : Fin 16).val] = true ∧ ∀ j : Fin 16, j < 15 → s.key[j.val] = false) ∧
    ∀ k : Fin 16, s0.key[k.val] = false := by
  decide

/-- A run of every other command, whose one STEP runs FX18 and not FX15. -/
theorem witness_ReadDelayTimerCopiesDT :
    ((∀ y, Instr.ldVDt 0 ≠ .ldDtV y) ∧ ∃ t, exec (.ldVDt 0) s0 = .next t) ∧
    let s := fetching 0xF018 s0
    let cs : List Command := [.step, .key 0 true, .load [1], .readDisplay]
    Command.tick ∉ cs ∧ Command.reset ∉ cs ∧
    (∀ (pre post : List Command) (u : State) (qs : List Reply), cs = pre ++ .step :: post →
      performAll pre s = .next (qs, u) → u.status = .running → ∀ y, ¬ Fetches u (.ldDtV y)) ∧
    ∃ rs t, performAll cs s = .next (rs, t) := by
  refine ⟨⟨fun _ h => (by cases h), _, rfl⟩, by decide, by decide, ?_, _, _, rfl⟩
  rintro pre post u qs hcs hp - y ⟨-, hf⟩
  have hpre : pre = [] := by
    rcases pre with _ | ⟨a, _ | ⟨b, _ | ⟨c, _ | ⟨d, pre⟩⟩⟩⟩ <;> simp at hcs ⊢
  subst hpre
  cases hp
  have hst : decodeWord (wordAt (fetching 0xF018 s0)) = some (.ldStV 0) := by decide
  rw [hst] at hf
  cases hf

/-- The longest ROM that fits and the shortest that does not; the last byte of the first. -/
theorem witness_LoadCopiesTheRomOrReportsCapacity :
    ((List.replicate 3584 (7 : Byte)).length ≤ 3584 ∧ s0.mem.wf = true ∧ (List.replicate 3584 (7 : Byte))[3583]? = some 7) ∧
    3584 < (List.replicate 3585 (7 : Byte)).length := by
  simp only [List.length_replicate, List.getElem?_replicate]
  decide

theorem witness_KeyWritesOneKeyAndReadDisplayNothing : 16 ≤ 16 ∧ (15 : Fin 16).val < 16 := by decide

/-- The first and the last byte of FONT, and the first address after it. -/
theorem witness_ResetMemoryIsFontAndZeroes :
    fontBytes[0]? = some 0xF0 ∧ fontBytes[79]? = some 0x80 ∧ 80 ≤ 80 ∧
    ∃ t, perform .reset (fetching 0x1234 s0) = .next (.nothing, t) :=
  ⟨rfl, rfl, Nat.le_refl _, _, rfl⟩

theorem witness_OnlyResetLeavesHalted :
    let s := s0.setStatus (.halted (.stackOverflow 0x200))
    s.status = .halted (.stackOverflow 0x200) ∧ Command.reset ∉ [Command.step, .tick, .key 0 true, .load [1], .readDisplay] ∧
    ∃ rs t, performAll [.step, .tick, .key 0 true, .load [1], .readDisplay] s = .next (rs, t) :=
  ⟨rfl, by decide, _, _, rfl⟩

/-- V0 and V1 are stored over the word at 0x202, and V14 and V15 over the word at the end of the block. -/
theorem witness_StoresAreSeenByTheNextFetch :
    (let s := s0.setI 0x202;
      s.mem.wf = true ∧ s.I.toNat + (1 : RegIdx).val < 4096 ∧ s.pc.toNat + 3 < 4096 ∧
      s.I.toNat + (0 : RegIdx).val = s.pc.toNat + 2 ∧ (1 : RegIdx).val = (0 : RegIdx).val + 1 ∧ (1 : RegIdx) ≤ 1) ∧
    (let s := (s0.setPc 0xFFC).setI 0xFF0;
      s.I.toNat + (15 : RegIdx).val < 4096 ∧ s.pc.toNat + 3 < 4096 ∧
      s.I.toNat + (14 : RegIdx).val = s.pc.toNat + 2 ∧ (15 : RegIdx).val = (14 : RegIdx).val + 1 ∧ (15 : RegIdx) ≤ 15) := by
  decide

theorem witness_ParkedStaysParked :
    let s := fetching 0x1200 s0
    s.parked ∧ Command.reset ∉ [Command.step, .tick, .key 0 true, .readDisplay] ∧
    (∀ rom, Command.load rom ∉ [Command.step, .tick, .key 0 true, .readDisplay]) ∧
    ∃ rs t, performAll [.step, .tick, .key 0 true, .readDisplay] s = .next (rs, t) :=
  ⟨⟨rfl, 0x200, by rfl, rfl⟩, by decide, fun rom h => (by simp at h), _, _, rfl⟩

end Sys2Proof.Tests
end

/-!
SUPPORT. What a step, a command and an instruction can answer: for step, the three ways of R97; for each instruction that can
raise, the raise or the one state it completes in.
-/

namespace Sys2Proof.Machine

/-- What a step can be: nothing (Halted), a raise by fetch or decode, or the instruction fetched. -/
theorem step_cases (s : State) :
    ((∃ e, s.status = .halted e) ∧ step s = .next s) ∨
    (s.status = .running ∧ ∃ e, s.fetchInstr = .error e ∧ step s = .next (s.setStatus (.halted e))) ∨
    (s.status = .running ∧ ∃ i, s.fetchInstr = .ok i ∧ step s = exec i s) := by
  cases hrun : s.status with
  | halted e => exact .inl ⟨⟨e, rfl⟩, step_halted hrun⟩
  | running =>
    cases hf : s.fetchInstr with
    | error e => exact .inr (.inl ⟨rfl, e, rfl, step_error hrun hf⟩)
    | ok i => exact .inr (.inr ⟨rfl, i, rfl, step_ok hrun hf⟩)

section
variable {s t : State} {r : Reply}

theorem perform_step_inv (h : perform .step s = .next (r, t)) : step s = .next t ∧ r = t.stepReply := by
  rw [perform] at h
  cases hs : step s with
  | next u => rw [hs] at h; cases h; exact ⟨rfl, rfl⟩
  | fault f => rw [hs] at h; cases h
  | refused q => rw [hs] at h; cases h

theorem perform_key_inv {k : Nat} {b : Bool} (h : perform (.key k b) s = .next (r, t)) :
    k < 16 ∧ r = .nothing ∧ t = s.setKey k b := by
  rcases Nat.lt_or_ge k 16 with hk | hk
  · cases (perform_key_ok hk b s).symm.trans h
    exact ⟨hk, rfl, rfl⟩
  · cases (perform_key_refused hk b s).symm.trans h

end

end Sys2Proof.Machine

namespace Sys2Proof.Claims

open Sys2Proof.Machine

theorem Answers.post {i : Instr} {s t : State} {P : State → Prop} (h : Answers i s P) (ht : exec i s = .next t) : P t := by
  obtain ⟨u, hu, hpost⟩ := h
  exact Host.Outcome.next.inj (hu.symm.trans ht) ▸ hpost

/-! ## The instructions that can raise -/

theorem ret_cases (s : State) : (∃ e, Raises .ret s e) ∨ ∃ h : 0 < s.SP.val,
    exec .ret s = .next { s with pc := s.stack[s.SP.val - 1], SP := ⟨s.SP.val - 1, by omega⟩ } := by
  rcases Nat.eq_zero_or_pos s.SP.val with h | h
  · exact .inl ⟨_, execRet_error h⟩
  · exact .inr ⟨h, execRet_ok h⟩

theorem call_cases (nnn : Addr12) (s : State) : (∃ e, Raises (.call nnn) s e) ∨ ∃ h : s.SP.val < 16,
    exec (.call nnn) s = .next
      { s with stack := s.stack.set s.SP.val (s.pc + 2), SP := ⟨s.SP.val + 1, by omega⟩, pc := zextAddr nnn } := by
  by_cases h : s.SP.val < 16
  · exact .inr ⟨h, execCall_ok nnn h⟩
  · exact .inl ⟨_, execCall_error nnn (by omega)⟩

theorem drw_cases (x y : RegIdx) (n : RowCount) (s : State) : (∃ e, Raises (.drw x y n) s e) ∨
    exec (.drw x y n) s = .next ((s.advance.setFb (s.drawn x y n).1).writeVF (collisionFlag (s.drawn x y n).2)) := by
  by_cases h : n.val = 0 ∨ s.I.toNat + n.val ≤ 4096
  · exact .inr (execDrw_ok x y h)
  · exact .inl ⟨_, execDrw_error x y (by omega) (by omega)⟩

theorem ldB_cases (x : RegIdx) (s : State) : (∃ e, Raises (.ldB x) s e) ∨ (s.I.toNat + 3 ≤ 4096 ∧
    exec (.ldB x) s = .next (s.advance.setMem (s.mem.writeBytes s.I.toNat (bcdDigits (s.readV x))))) := by
  rcases Nat.lt_or_ge 4096 (s.I.toNat + 3) with h | h
  · exact .inl ⟨_, execLdB_error x h⟩
  · exact .inr ⟨h, execLdB_ok x h⟩

theorem ldMemV_cases (x : RegIdx) (s : State) : (∃ e, Raises (.ldMemV x) s e) ∨ (s.I.toNat + x.val < 4096 ∧
    exec (.ldMemV x) s = .next (s.advance.setMem (s.mem.writeBytes s.I.toNat (s.block x)))) := by
  rcases Nat.lt_or_ge (s.I.toNat + x.val) 4096 with h | h
  · exact .inr ⟨h, execLdMemV_ok x h⟩
  · exact .inl ⟨_, execLdMemV_error x h⟩

theorem ldVMem_cases (x : RegIdx) (s : State) : (∃ e, Raises (.ldVMem x) s e) ∨
    exec (.ldVMem x) s = .next (s.advance.loadBlock x) := by
  rcases Nat.lt_or_ge (s.I.toNat + x.val) 4096 with h | h
  · exact .inr (execLdVMem_ok x h)
  · exact .inl ⟨_, execLdVMem_error x h⟩

theorem skp_cases (x : RegIdx) (s : State) : (∃ e, Raises (.skp x) s e) ∨
    ∃ pressed, exec (.skp x) s = .next (s.advance.skipIf pressed) := by
  rcases Nat.lt_or_ge (s.readV x).toNat 16 with h | h
  · exact .inr ⟨_, execSkp_ok x h⟩
  · exact .inl ⟨_, execSkp_error x h⟩

theorem sknp_cases (x : RegIdx) (s : State) : (∃ e, Raises (.sknp x) s e) ∨
    ∃ skips, exec (.sknp x) s = .next (s.advance.skipIf skips) := by
  rcases Nat.lt_or_ge (s.readV x).toNat 16 with h | h
  · exact .inr ⟨_, execSknp_ok x h⟩
  · exact .inl ⟨_, execSknp_error x h⟩

/-- FX0A does not raise: it takes a key or waits, and waiting is going back to pc0 (R213). -/
theorem ldK_cases (x : RegIdx) (s : State) : exec (.ldK x) s = .next s ∨
    ∃ k, exec (.ldK x) s = .next (s.advance.writeV x k) := by
  cases h : s.lowestPressed with
  | none => exact .inl (execLdK_waits x h)
  | some k => exact .inr ⟨_, execLdK_pressed x h⟩

/-! ## Fetch -/

theorem wordOfBytes_eq_wordAt (s : State) :
    wordOfBytes (s.mem.read s.pc.toNat) (s.mem.read (s.pc.toNat + 1)) = wordAt s := by
  refine BitVec.eq_of_toNat_eq ?_
  have hlt := (wordOfBytes (s.mem.read s.pc.toNat) (s.mem.read (s.pc.toNat + 1))).isLt
  rw [wordOfBytes_toNat] at hlt ⊢
  rw [wordAt, BitVec.toNat_ofNat, Nat.mod_eq_of_lt hlt]

theorem fetches_of_fetchInstr {i : Instr} {s : State} (h : s.fetchInstr = .ok i) : Fetches s i := by
  rcases s.fetchInstr_cases with ⟨-, hf⟩ | ⟨hpc, w, hw, ⟨-, hf⟩ | ⟨j, hj, hf⟩⟩
  · cases h.symm.trans hf
  · cases h.symm.trans hf
  · cases h.symm.trans hf
    cases (State.fetchWord_ok hpc).symm.trans hw
    exact ⟨hpc, wordOfBytes_eq_wordAt s ▸ hj⟩

end Sys2Proof.Claims

/-!
PROOF. Frames: what each state operation leaves unchanged, and with it what each instruction does (O15).
-/

namespace Sys2Proof.Claims

open Sys2Proof.Machine

/-! ## One rule per state operation -/

section
variable {s t : State} {P : StatePart → Prop}

theorem Frame.refl (s : State) (P : StatePart → Prop) : Frame s s P := by
  intro p _
  cases p <;> rfl

theorem Frame.setPc (h : Frame s t P) (a : Word) : Frame s (t.setPc a) P := by
  intro p hp
  have hsame := h p hp
  cases p <;> exact hsame

theorem Frame.advance (s : State) (P : StatePart → Prop) : Frame s s.advance P := (Frame.refl s P).setPc _

theorem Frame.skipIf (h : Frame s t P) (c : Bool) : Frame s (t.skipIf c) P := by
  cases c with
  | false => exact h
  | true => exact h.setPc _

theorem Frame.writeV (h : Frame s t P) {x : RegIdx} (hx : P (.v x)) (b : Byte) : Frame s (t.writeV x b) P := by
  intro p hp
  have hsame := h p hp
  cases p with
  | v r =>
    have hr : r ≠ x := fun hr => hp (hr ▸ hx)
    rwa [StatePart.same, State.readV_writeV, if_neg hr]
  | _ => exact hsame

theorem Frame.setI (h : Frame s t P) (hi : P .index) (a : Word) : Frame s (t.setI a) P := by
  intro p hp
  have hsame := h p hp
  cases p with
  | index => exact absurd hi hp
  | _ => exact hsame

theorem Frame.setDT (h : Frame s t P) (hd : P .delay) (b : Byte) : Frame s (t.setDT b) P := by
  intro p hp
  have hsame := h p hp
  cases p with
  | delay => exact absurd hd hp
  | _ => exact hsame

theorem Frame.setST (h : Frame s t P) (hd : P .sound) (b : Byte) : Frame s (t.setST b) P := by
  intro p hp
  have hsame := h p hp
  cases p with
  | sound => exact absurd hd hp
  | _ => exact hsame

theorem Frame.countDraw (h : Frame s t P) (hd : P .draws) : Frame s t.countDraw P := by
  intro p hp
  have hsame := h p hp
  cases p with
  | draws => exact absurd hd hp
  | _ => exact hsame

theorem Frame.setFb (h : Frame s t P) (hpix : ∀ row col, P (.pixel row col)) (fb : Framebuffer) :
    Frame s (t.setFb fb) P := by
  intro p hp
  have hsame := h p hp
  cases p with
  | pixel row col => exact absurd (hpix row col) hp
  | _ => exact hsame

theorem Frame.writeBytes (h : Frame s t P) {base : Nat} {vs : List Byte}
    (hb : ∀ k, k < vs.length → P (.byte (base + k))) : Frame s (t.setMem (t.mem.writeBytes base vs)) P := by
  intro p hp
  have hsame := h p hp
  cases p with
  | byte a =>
    have ha : a < base ∨ base + vs.length ≤ a := by
      by_contra hin
      have hk := hb (a - base) (by omega)
      rw [Nat.add_sub_cancel' (by omega)] at hk
      exact hp hk
    exact (Memory.read_writeBytes_other vs t.mem ha).trans hsame
  | _ => exact hsame

theorem Frame.loadBlock (h : Frame s t P) {x : RegIdx} (hx : ∀ r, r ≤ x → P (.v r)) : Frame s (t.loadBlock x) P := by
  intro p hp
  have hsame := h p hp
  cases p with
  | v r => rwa [StatePart.same, State.readV_loadBlock, if_neg fun hr => hp (hx r hr)]
  | _ => exact hsame

theorem Frame.setSP (h : Frame s t P) (hsp : P .sp) (n : Fin 17) : Frame s { t with SP := n } P := by
  intro p hp
  have hsame := h p hp
  cases p with
  | sp => exact absurd hsp hp
  | _ => exact hsame

theorem Frame.setSlot (h : Frame s t P) {k : Fin 16} (hk : P (.slot k)) (a : Word) :
    Frame s { t with stack := t.stack.set k.val a } P := by
  intro p hp
  have hsame := h p hp
  cases p with
  | slot j =>
    have hj : k.val ≠ j.val := fun hj => hp (Fin.ext hj ▸ hk)
    exact (Vector.getElem_set_ne k.isLt j.isLt hj).trans hsame
  | _ => exact hsame

end

/-! ## The instructions -/

/-- Every instruction raises, or completes and changes only what the table names for it. -/
theorem exec_raises_or_frames (i : Instr) (s : State) :
    (∃ e, Raises i s e) ∨ Answers i s fun t => Frame s t (mayChange s i) := by
  have keep := Frame.refl s (mayChange s i)
  have adv := Frame.advance s (mayChange s i)
  cases i with
  | cls => exact .inr ⟨_, rfl, adv.setFb (fun row col => ⟨row, col, rfl⟩) _⟩
  | ret => exact (ret_cases s).imp_right fun ⟨_, ht⟩ => ⟨_, ht, (keep.setPc _).setSP rfl _⟩
  | call nnn =>
    exact (call_cases nnn s).imp_right fun ⟨h, ht⟩ =>
      ⟨_, ht, ((keep.setSlot (k := ⟨s.SP.val, h⟩) (.inr ⟨_, rfl, rfl⟩) _).setSP (.inl rfl) _).setPc _⟩
  | jp | jpV0 => exact .inr ⟨_, rfl, adv.setPc _⟩
  | seImm | sneImm | seReg | sneReg => exact .inr ⟨_, rfl, adv.skipIf _⟩
  | ldImm | addImm | ldReg | orReg | andReg | xorReg | ldVDt => exact .inr ⟨_, rfl, adv.writeV rfl _⟩
  | addReg | sub | shr | subn | shl => exact .inr ⟨_, rfl, (adv.writeV (.inl rfl) _).writeV (.inr rfl) _⟩
  | ldI | addI | ldF => exact .inr ⟨_, rfl, adv.setI rfl _⟩
  | rnd => exact .inr ⟨_, rfl, (adv.countDraw (.inr rfl)).writeV (.inl rfl) _⟩
  | drw x y n =>
    exact (drw_cases x y n s).imp_right fun ht =>
      ⟨_, ht, (adv.setFb (fun row col => .inr ⟨row, col, rfl⟩) _).writeV (.inl rfl) _⟩
  | skp x => exact (skp_cases x s).imp_right fun ⟨_, ht⟩ => ⟨_, ht, adv.skipIf _⟩
  | sknp x => exact (sknp_cases x s).imp_right fun ⟨_, ht⟩ => ⟨_, ht, adv.skipIf _⟩
  | ldK x =>
    rcases ldK_cases x s with ht | ⟨k, ht⟩
    · exact .inr ⟨_, ht, keep⟩
    · exact .inr ⟨_, ht, adv.writeV rfl k⟩
  | ldDtV => exact .inr ⟨_, rfl, adv.setDT rfl _⟩
  | ldStV => exact .inr ⟨_, rfl, adv.setST rfl _⟩
  | ldB x =>
    exact (ldB_cases x s).imp_right fun ⟨_, ht⟩ => ⟨_, ht, adv.writeBytes fun k hk => ⟨k, hk, rfl⟩⟩
  | ldMemV x =>
    exact (ldMemV_cases x s).imp_right fun ⟨_, ht⟩ => ⟨_, ht, adv.writeBytes fun k hk =>
      ⟨k, by simpa [Nat.lt_succ_iff] using hk, rfl⟩⟩
  | ldVMem x =>
    exact (ldVMem_cases x s).imp_right fun ht => ⟨_, ht, adv.loadBlock fun r hr => ⟨r, hr, rfl⟩⟩

/-- The same, of a state that the instruction answers. -/
theorem exec_next {i : Instr} {s t : State} (h : exec i s = .next t) :
    (∃ e, t = s.setStatus (.halted e)) ∨ Frame s t (mayChange s i) := by
  rcases exec_raises_or_frames i s with ⟨e, ht⟩ | hframe
  · exact .inl ⟨e, Host.Outcome.next.inj (h.symm.trans ht)⟩
  · exact .inr (hframe.post h)

/-- Settles O15: a step that raises ends Halted, and every other one keeps its frame. -/
theorem instructionsChangeOnlyWhatTheTableNames : Obligations.InstructionsChangeOnlyWhatTheTableNames := by
  intro i s t _ h hrun
  rcases exec_next h with ⟨e, rfl⟩ | hframe
  · cases hrun
  · exact hframe

end Sys2Proof.Claims

/-!
PROOF. The invariant: memory in its canonical form, pc at most 0x10FE, every stack slot at most 0x1000 (O12, O13).
-/

namespace Sys2Proof.Machine

/-! ## One rule per state operation that touches memory, pc or the stack -/

section
variable {s t : State}

/-- The invariant speaks of memory, pc and the stack only. -/
theorem State.Inv.congr (hs : s.Inv) (hm : t.mem = s.mem) (hpc : t.pc = s.pc) (hst : t.stack = s.stack) : t.Inv where
  memory := hm ▸ hs.memory
  pcBound := hpc ▸ hs.pcBound
  stackBound := hst ▸ hs.stackBound

theorem State.Inv.setStatus (hs : s.Inv) (st : Status) : (s.setStatus st).Inv := hs.congr rfl rfl rfl

theorem State.Inv.setPc (hs : s.Inv) {a : Word} (ha : a.toNat ≤ 0x10FE) : (s.setPc a).Inv :=
  ⟨hs.memory, ha, hs.stackBound⟩

theorem State.Inv.writeBytes (hs : s.Inv) {base : Nat} {vs : List Byte} (hb : base + vs.length ≤ 4096) :
    (s.setMem (s.mem.writeBytes base vs)).Inv :=
  ⟨Memory.writeBytes_wf vs hs.memory hb, hs.pcBound, hs.stackBound⟩

theorem State.Inv.setSlot (hs : s.Inv) {k : Nat} (hk : k < 16) {a : Word} (ha : a.toNat ≤ 0x1000) :
    State.Inv { s with stack := s.stack.set k a } where
  memory := hs.memory
  pcBound := hs.pcBound
  stackBound j := by
    rw [Vector.getElem_set]
    split
    · exact ha
    · exact hs.stackBound j

/-- After a fetch, pc0 + 2 does not wrap and is at most 0x1000. -/
theorem pc_add_two_le {pc : Word} (hpc : pc.toNat + 1 < 4096) : (pc + 2).toNat ≤ 0x1000 := by
  bv_omega

theorem State.Inv.advance (hs : s.Inv) (hpc : s.pc.toNat + 1 < 4096) : s.advance.Inv :=
  hs.setPc ((pc_add_two_le hpc).trans (by decide))

theorem State.Inv.skip (hs : s.Inv) (hpc : s.pc.toNat + 1 < 4096) (c : Bool) : (s.advance.skipIf c).Inv := by
  have hadv := hs.advance hpc
  have hle : s.advance.pc.toNat ≤ 0x1000 := pc_add_two_le hpc
  cases c with
  | false => exact hadv
  | true => exact hadv.setPc (by bv_omega)

end

theorem zextAddr_le (nnn : Addr12) : (zextAddr nnn).toNat ≤ 0xFFF := by
  have := nnn.isLt
  rw [zextAddr, BitVec.toNat_setWidth]
  omega

/-- BNNN's target is at most 255 + 0xFFF, which is where the bound on pc comes from. -/
theorem zextByte_add_zextAddr_le (v : Byte) (nnn : Addr12) : (zextByte v + zextAddr nnn).toNat ≤ 0x10FE := by
  have := v.isLt
  have := nnn.isLt
  rw [zextByte, zextAddr, BitVec.toNat_add, BitVec.toNat_setWidth, BitVec.toNat_setWidth]
  omega

end Sys2Proof.Machine

namespace Sys2Proof.Claims

open Sys2Proof.Machine

/-- An instruction that was fetched keeps the invariant. -/
theorem exec_keeps_inv (i : Instr) {s : State} (hs : s.Inv) (hpc : s.pc.toNat + 1 < 4096) : Answers i s State.Inv := by
  have adv := hs.advance hpc
  cases i with
  | ret =>
    rcases ret_cases s with ⟨e, ht⟩ | ⟨h, ht⟩
    · exact ⟨_, ht, hs.setStatus _⟩
    · have htop := hs.stackBound ⟨s.SP.val - 1, by omega⟩
      exact ⟨_, ht, (hs.setPc (htop.trans (by decide))).congr rfl rfl rfl⟩
  | call nnn =>
    rcases call_cases nnn s with ⟨e, ht⟩ | ⟨h, ht⟩
    · exact ⟨_, ht, hs.setStatus _⟩
    · exact ⟨_, ht, ((hs.setSlot h (pc_add_two_le hpc)).setPc ((zextAddr_le nnn).trans (by decide))).congr rfl rfl rfl⟩
  | jp nnn => exact ⟨_, rfl, adv.setPc ((zextAddr_le nnn).trans (by decide))⟩
  | jpV0 nnn => exact ⟨_, rfl, adv.setPc (zextByte_add_zextAddr_le _ nnn)⟩
  | seImm | sneImm | seReg | sneReg => exact ⟨_, rfl, hs.skip hpc _⟩
  | skp x =>
    rcases skp_cases x s with ⟨e, ht⟩ | ⟨c, ht⟩
    · exact ⟨_, ht, hs.setStatus _⟩
    · exact ⟨_, ht, hs.skip hpc c⟩
  | sknp x =>
    rcases sknp_cases x s with ⟨e, ht⟩ | ⟨c, ht⟩
    · exact ⟨_, ht, hs.setStatus _⟩
    · exact ⟨_, ht, hs.skip hpc c⟩
  | ldK x =>
    rcases ldK_cases x s with ht | ⟨k, ht⟩
    · exact ⟨_, ht, hs⟩
    · exact ⟨_, ht, adv.congr rfl rfl rfl⟩
  | drw x y n =>
    rcases drw_cases x y n s with ⟨e, ht⟩ | ht
    · exact ⟨_, ht, hs.setStatus _⟩
    · exact ⟨_, ht, adv.congr rfl rfl rfl⟩
  | ldB x =>
    rcases ldB_cases x s with ⟨e, ht⟩ | ⟨h, ht⟩
    · exact ⟨_, ht, hs.setStatus _⟩
    · exact ⟨_, ht, adv.writeBytes h⟩
  | ldMemV x =>
    rcases ldMemV_cases x s with ⟨e, ht⟩ | ⟨h, ht⟩
    · exact ⟨_, ht, hs.setStatus _⟩
    · exact ⟨_, ht, adv.writeBytes (by rw [State.block_length]; omega)⟩
  | ldVMem x =>
    rcases ldVMem_cases x s with ⟨e, ht⟩ | ht
    · exact ⟨_, ht, hs.setStatus _⟩
    · exact ⟨_, ht, adv.congr rfl rfl rfl⟩
  -- the others write neither memory nor the stack, and pc by the advance only
  | _ => exact ⟨_, rfl, adv.congr rfl rfl rfl⟩

/-- Settles O12: memory lists no cell, pc is 0x200 and every slot 0. -/
theorem invariantAtReset : Obligations.InvariantAtReset where
  memory := rfl
  pcBound := by decide
  stackBound k := by simp [State.reset]

/-- Settles O13: a fetched instruction keeps the invariant (`exec_keeps_inv`), and every other step changes the status at
most. -/
theorem stepKeepsInvariant : Obligations.StepKeepsInvariant := by
  intro s t hs h
  rcases step_cases s with ⟨-, ht⟩ | ⟨-, e, -, ht⟩ | ⟨-, i, hf, ht⟩
  · exact Host.Outcome.next.inj (ht.symm.trans h) ▸ hs
  · exact Host.Outcome.next.inj (ht.symm.trans h) ▸ hs.setStatus _
  · exact (exec_keeps_inv i hs (State.fetchInstr_pc hf)).post (ht.symm.trans h)

end Sys2Proof.Claims

/-!
PROOF. Noninterference: no instruction reads ST, or a slot at or above SP (O17).
-/

namespace Sys2Proof.Machine

/-- The state with other values in ST and the stack. No instruction reads ST (R31), nor a slot at or above SP (R29). -/
def State.hide (s : State) (v : Byte) (w : Vector Word 16) : State := { s with ST := v, stack := w }

/-- The other stack holds what the state's stack holds in every occupied slot. -/
def State.SlotsAgree (s : State) (w : Vector Word 16) : Prop := ∀ j : Fin 16, j.val < s.SP.val → w[j.val] = s.stack[j.val]

/-- The next state of a result, changed by f. -/
def mapNext (f : State → State) : Result → Result
  | .next s => .next (f s)
  | .fault r => .fault r
  | .refused r => .refused r

section
variable (s : State) (v : Byte) (w : Vector Word 16)

@[simp] theorem State.hide_readV (x : RegIdx) : (s.hide v w).readV x = s.readV x := rfl
@[simp] theorem State.hide_base : (s.hide v w).base = s.base := rfl
@[simp] theorem State.hide_keyAt (b : Byte) : (s.hide v w).keyAt b = s.keyAt b := rfl
@[simp] theorem State.hide_lowestPressed : (s.hide v w).lowestPressed = s.lowestPressed := rfl
@[simp] theorem State.hide_fetchInstr : (s.hide v w).fetchInstr = s.fetchInstr := rfl

theorem State.hide_skip (c : Bool) : (s.hide v w).advance.skipIf c = (s.advance.skipIf c).hide v w := by cases c <;> rfl

end

end Sys2Proof.Machine

namespace Sys2Proof.Claims

open Sys2Proof.Machine

/-! ## Who writes ST, SP and the slots -/

section
variable {i : Instr} {s t : State}

theorem mayChange_sound (h : mayChange s i .sound) : ∃ x, i = .ldStV x := by
  cases i <;> simp [mayChange] at h ⊢

theorem mayChange_sp (h : mayChange s i .sp) : i = .ret ∨ ∃ nnn, i = .call nnn := by
  cases i <;> simp [mayChange] at h ⊢

theorem mayChange_slot {k : Fin 16} (h : mayChange s i (.slot k)) : ∃ nnn, i = .call nnn := by
  cases i <;> simp [mayChange] at h ⊢

theorem exec_ST (h : exec i s = .next t) (hi : ∀ x, i ≠ .ldStV x) : t.ST = s.ST := by
  rcases exec_next h with ⟨e, rfl⟩ | hframe
  · rfl
  · exact hframe .sound fun hp => (mayChange_sound hp).elim hi

theorem exec_SP (h : exec i s = .next t) (hret : i ≠ .ret) (hcall : ∀ nnn, i ≠ .call nnn) : t.SP = s.SP := by
  rcases exec_next h with ⟨e, rfl⟩ | hframe
  · rfl
  · exact hframe .sp fun hp => (mayChange_sp hp).elim hret fun hp => hp.elim hcall

theorem exec_stack (h : exec i s = .next t) (hcall : ∀ nnn, i ≠ .call nnn) : t.stack = s.stack := by
  rcases exec_next h with ⟨e, rfl⟩ | hframe
  · rfl
  · exact Vector.ext fun k hk => hframe (.slot ⟨k, hk⟩) fun hp => (mayChange_slot hp).elim hcall

end

/-! ## Nobody reads them -/

section
variable {i : Instr} {s t : State} {v : Byte} {w : Vector Word 16}

/-- The instructions but FX18, 2NNN and 00EE neither read nor write ST or the stack. -/
theorem exec_hide_eq (hst : ∀ x, i ≠ .ldStV x) (hcall : ∀ nnn, i ≠ .call nnn) (hret : i ≠ .ret) :
    exec i (s.hide v w) = mapNext (·.hide v w) (exec i s) := by
  cases i with
  | ldStV x => exact absurd rfl (hst x)
  | call nnn => exact absurd rfl (hcall nnn)
  | ret => exact absurd rfl hret
  | seImm | sneImm | seReg | sneReg => exact congrArg _ (s.hide_skip v w _)
  | skp x | sknp x =>
    simp only [exec_skp, exec_sknp, execSkp, execSknp, State.hide_readV, State.hide_keyAt, State.hide_skip]
    cases s.keyAt (s.readV x) <;> rfl
  | ldK x =>
    simp only [exec_ldK, execLdK, State.hide_lowestPressed]
    cases s.lowestPressed <;> rfl
  | drw x y n =>
    simp only [exec_drw, execDrw, State.hide_base]
    cases checkRange s.base n.val <;> rfl
  | ldB x =>
    simp only [exec_ldB, execLdB, State.hide_base]
    cases checkRange s.base 3 <;> rfl
  | ldMemV x =>
    simp only [exec_ldMemV, execLdMemV, State.hide_base]
    cases checkRange s.base (blockSize x) <;> rfl
  | ldVMem x =>
    simp only [exec_ldVMem, execLdVMem, State.hide_base]
    cases checkRange s.base (blockSize x) <;> rfl
  | _ => rfl

/-- The result r, of the state with v in ST and w for its stack, is t with hidden parts of its own: they still agree in
every occupied slot, and a part that was not changed at the start is not changed now. -/
def IsHidden (s : State) (v : Byte) (w : Vector Word 16) (r : Result) (t : State) : Prop :=
  ∃ v' w', r = .next (t.hide v' w') ∧ t.SlotsAgree w' ∧ (v = s.ST → v' = t.ST) ∧ (w = s.stack → w' = t.stack)

/-- 2NNN writes the same word at the pointer of either stack, and so occupies a slot in which they agree. -/
theorem call_isHidden (nnn : Addr12) (hw : s.SlotsAgree w) (h : exec (.call nnn) s = .next t) :
    IsHidden s v w (exec (.call nnn) (s.hide v w)) t := by
  by_cases hsp : s.SP.val < 16
  · obtain rfl := Host.Outcome.next.inj ((execCall_ok nnn hsp).symm.trans h)
    refine ⟨v, w.set s.SP.val (s.pc + 2), execCall_ok (s := s.hide v w) nnn hsp, fun j hj => ?_, id, by rintro rfl; rfl⟩
    by_cases hjs : s.SP.val = j.val
    · simp [hjs]
    · simpa [Vector.getElem_set_ne _ _ hjs] using hw j (lt_of_le_of_ne (Nat.lt_succ_iff.1 hj) (Ne.symm hjs))
  · have hfull : s.SP.val = 16 := by omega
    obtain rfl := Host.Outcome.next.inj ((execCall_error nnn hfull).symm.trans h)
    exact ⟨v, w, execCall_error (s := s.hide v w) nnn hfull, hw, id, id⟩

/-- 00EE reads the slot below the pointer, an occupied one. -/
theorem ret_isHidden (hw : s.SlotsAgree w) (h : exec .ret s = .next t) : IsHidden s v w (exec .ret (s.hide v w)) t := by
  rcases Nat.eq_zero_or_pos s.SP.val with hsp | hsp
  · obtain rfl := Host.Outcome.next.inj ((execRet_error hsp).symm.trans h)
    exact ⟨v, w, execRet_error (s := s.hide v w) hsp, hw, id, id⟩
  · obtain rfl := Host.Outcome.next.inj ((execRet_ok hsp).symm.trans h)
    have htop : w[s.SP.val - 1] = s.stack[s.SP.val - 1] := hw ⟨s.SP.val - 1, by omega⟩ (Nat.sub_one_lt_of_lt hsp)
    refine ⟨v, w, ?_, fun j hj => hw j (Nat.lt_of_lt_of_le hj (Nat.sub_le _ 1)), id, id⟩
    rw [← htop]
    exact execRet_ok (s := s.hide v w) hsp

/-- What ST and the slots at or above SP hold reaches no other part of the state that an instruction answers. -/
theorem exec_isHidden (hw : s.SlotsAgree w) (h : exec i s = .next t) : IsHidden s v w (exec i (s.hide v w)) t := by
  by_cases hcall : ∃ nnn, i = .call nnn
  · obtain ⟨nnn, rfl⟩ := hcall
    exact call_isHidden nnn hw h
  by_cases hret : i = .ret
  · subst hret
    exact ret_isHidden hw h
  by_cases hst : ∃ x, i = .ldStV x
  · obtain ⟨x, rfl⟩ := hst
    obtain rfl := Host.Outcome.next.inj h
    exact ⟨s.readV x, w, rfl, hw, fun _ => rfl, id⟩
  push Not at hcall hst
  have hstack := exec_stack h hcall
  have hsp := exec_SP h hret hcall
  refine ⟨v, w, ?_, ?_, (·.trans (exec_ST h hst).symm), (·.trans hstack.symm)⟩
  · rw [exec_hide_eq hst hcall hret, h, mapNext]
  · rwa [State.SlotsAgree, hstack, hsp]

/-- The same of a step, which reads the status and fetches besides. -/
theorem step_isHidden (hw : s.SlotsAgree w) (h : step s = .next t) : IsHidden s v w (step (s.hide v w)) t := by
  rcases step_cases s with ⟨⟨e, hhalt⟩, ht⟩ | ⟨hrun, e, hf, ht⟩ | ⟨hrun, i, hf, ht⟩
  · obtain rfl := Host.Outcome.next.inj (ht.symm.trans h)
    exact ⟨v, w, step_halted (s := s.hide v w) hhalt, hw, id, id⟩
  · obtain rfl := Host.Outcome.next.inj (ht.symm.trans h)
    exact ⟨v, w, step_error (s := s.hide v w) hrun hf, hw, id, id⟩
  · rw [step_ok (s := s.hide v w) hrun hf]
    exact exec_isHidden hw (ht.symm.trans h)

end

/-- Settles O17: a slot k >= SP is not occupied, and ST is the same in both states. -/
theorem staleStackSlotsAreNeverObserved : Obligations.StaleStackSlotsAreNeverObserved := by
  intro s t k a hk h
  have hw : s.SlotsAgree (s.stack.set k.val a) := fun j hj => Vector.getElem_set_ne k.isLt j.isLt (by omega)
  obtain ⟨v', w', ht', hagree, hv, -⟩ := step_isHidden (v := s.ST) hw h
  obtain rfl := hv rfl
  exact ⟨_, ht', rfl, hagree⟩

end Sys2Proof.Claims

/-!
PROOF. The sound timer: who writes it, and that TICK's beep alone shows it (O16).
-/

namespace Sys2Proof.Claims

open Sys2Proof.Machine

section
variable {s t : State} {r : Reply}

/-- R251. -/
theorem beeps_iff (s : State) : s.beeps = true ↔ s.ST = 1 := by simp [State.beeps]

/-- What ST holds reaches no other part of the state that a command leaves, and no reply but TICK's. -/
theorem perform_hide_ST (c : Command) (v : Byte) (h : perform c s = .next (r, t)) :
    ∃ r' v', perform c (s.hide v s.stack) = .next (r', t.hide v' t.stack) ∧ (c ≠ .tick → r' = r) := by
  cases c with
  | load rom =>
    rcases Nat.lt_or_ge 3584 rom.length with hl | hl
    · cases (perform_load_error hl s).symm.trans h
      exact ⟨_, v, perform_load_error hl _, fun _ => rfl⟩
    · cases (perform_load_ok hl s).symm.trans h
      exact ⟨_, v, perform_load_ok hl _, fun _ => rfl⟩
  | step =>
    obtain ⟨hs, rfl⟩ := perform_step_inv h
    obtain ⟨v', w', ht', -, -, hw'⟩ := step_isHidden (v := v) (w := s.stack) (fun _ _ => rfl) hs
    obtain rfl := hw' rfl
    exact ⟨_, v', perform_step_of_next ht', fun _ => rfl⟩
  | tick =>
    cases h
    exact ⟨_, tickDown v, rfl, fun hc => absurd rfl hc⟩
  | key k b =>
    obtain ⟨hk, rfl, rfl⟩ := perform_key_inv h
    exact ⟨_, v, perform_key_ok hk b _, fun _ => rfl⟩
  | readDisplay =>
    cases h
    exact ⟨_, v, rfl, fun _ => rfl⟩
  | reset =>
    cases h
    exact ⟨_, 0, rfl, fun _ => rfl⟩

/-- A step writes ST only by running FX18. -/
theorem step_ST (h : step s = .next t) : t.ST = s.ST ∨ (s.status = .running ∧ ∃ x, Fetches s (.ldStV x)) := by
  rcases step_cases s with ⟨-, ht⟩ | ⟨-, e, -, ht⟩ | ⟨hrun, i, hf, ht⟩
  · exact .inl (Host.Outcome.next.inj (ht.symm.trans h) ▸ rfl)
  · exact .inl (Host.Outcome.next.inj (ht.symm.trans h) ▸ rfl)
  · by_cases hi : ∃ x, i = .ldStV x
    · obtain ⟨x, rfl⟩ := hi
      exact .inr ⟨hrun, x, fetches_of_fetchInstr hf⟩
    · exact .inl (exec_ST (ht.symm.trans h) (not_exists.1 hi))

/-- A command other than TICK and RESET writes ST only by running FX18. -/
theorem perform_ST {c : Command} (htick : c ≠ .tick) (hreset : c ≠ .reset) (h : perform c s = .next (r, t)) :
    t.ST = s.ST ∨ (c = .step ∧ s.status = .running ∧ ∃ x, Fetches s (.ldStV x)) := by
  cases c with
  | tick => exact absurd rfl htick
  | reset => exact absurd rfl hreset
  | step => exact (step_ST (perform_step_inv h).1).imp_right fun hx => ⟨rfl, hx⟩
  | load rom =>
    rcases Nat.lt_or_ge 3584 rom.length with hl | hl
    · cases (perform_load_error hl s).symm.trans h
      exact .inl rfl
    · cases (perform_load_ok hl s).symm.trans h
      exact .inl rfl
  | key k b =>
    obtain ⟨-, -, rfl⟩ := perform_key_inv h
    exact .inl rfl
  | readDisplay =>
    cases h
    exact .inl rfl

end

/-- Settles O16: another ST is one of the hidden parts of `exec_isHidden` and `perform_hide_ST`, and `exec_ST` and
`perform_ST` say who writes it. -/
theorem soundTimerIsWrittenByTwoAndReadByTick : Obligations.SoundTimerIsWrittenByTwoAndReadByTick := by
  refine ⟨fun i s t v h => ?_, fun i s t h hi => exec_ST h hi, fun x s => ⟨_, rfl, rfl⟩,
    fun s => ⟨_, _, perform_tick s, beeps_iff s, tickDown_toNat s.ST⟩, fun c s t v r h => ?_,
    fun c s t r htick hreset h => perform_ST htick hreset h, fun s => ⟨_, _, perform_reset s, rfl⟩, rfl⟩
  · obtain ⟨v', w', ht', -, -, hw'⟩ := exec_isHidden (v := v) (w := s.stack) (fun _ _ => rfl) h
    obtain rfl := hw' rfl
    exact ⟨_, ht', rfl⟩
  · obtain ⟨r', v', ht', hr⟩ := perform_hide_ST c v h
    exact ⟨r', _, ht', rfl, hr⟩

end Sys2Proof.Claims

/-!
PROOF. Memory as programs meet it: the word a fetch reads (O7, O55), the ROM that LOAD places (O50) and the contents after
reset (O52).
-/

namespace Sys2Proof.Machine

/-- FX55's store: in a canonical memory the byte at I + j is V[j], for every register of the block (R195). -/
theorem State.read_storeBlock {s : State} {x j : RegIdx} (hm : s.mem.wf = true) (hx : s.I.toNat + x.val < 4096)
    (hj : j ≤ x) : (s.mem.writeBytes s.I.toNat (s.block x)).read (s.I.toNat + j.val) = s.readV j := by
  have hlen := s.block_length x
  have hk : j.val < (s.block x).length := hlen ▸ Nat.lt_succ_of_le hj
  rw [Memory.read_writeBytes_same _ hm (by omega) j.val hk, State.block_getElem]

/-- LOAD's copy: in a canonical memory the byte at 0x200 + k is byte k of a ROM that fits (R73). -/
theorem State.read_copyRom {s : State} {rom : List Byte} (hm : s.mem.wf = true) (hrom : rom.length ≤ 3584) {k : Nat}
    (hk : k < rom.length) : (s.copyRom rom).mem.read (0x200 + k) = rom[k] :=
  Memory.read_writeBytes_same rom hm (by simp; omega) k hk

theorem State.advance_pc_toNat {s : State} (h : s.pc.toNat + 2 < 65536) : s.advance.pc.toNat = s.pc.toNat + 2 := by
  rw [State.advance_pc]
  bv_omega

theorem State.fetchInstr_error_of_pc {s : State} (h : 4096 ≤ s.pc.toNat + 1) :
    s.fetchInstr = .error (.pcOutOfRange s.pc) := by
  rw [State.fetchInstr, State.fetchWord_error h]

theorem fontBytes_length : fontBytes.length = 80 := rfl

/-- R57: the address of a font byte reads as that byte. -/
theorem Memory.unlisted_font {a : Nat} {b : Byte} (h : fontBytes[a]? = some b) : Memory.unlisted a = b := by
  rw [Memory.unlisted, List.getD_eq_getElem?_getD, h, Option.getD_some]

/-- R57: an address past the font reads as 0. -/
theorem Memory.unlisted_zero {a : Nat} (h : 80 ≤ a) : Memory.unlisted a = 0 :=
  List.getD_eq_default _ _ (fontBytes_length.le.trans h)

end Sys2Proof.Machine

namespace Sys2Proof.Claims

open Sys2Proof.Machine

theorem wordAt_toNat (s : State) :
    (wordAt s).toNat = (s.mem.read s.pc.toNat).toNat * 256 + (s.mem.read (s.pc.toNat + 1)).toNat := by
  rw [← wordOfBytes_eq_wordAt, wordOfBytes_toNat]

theorem fetchWord_eq_wordAt {s : State} (h : s.pc.toNat + 1 < 4096) : s.fetchWord = .ok (wordAt s) := by
  rw [State.fetchWord_ok h, wordOfBytes_eq_wordAt]

/-- Settles O55: the next fetch reads at I + j and I + k, where FX55 has stored V[j] and V[k] (`State.read_storeBlock`). -/
theorem storesAreSeenByTheNextFetch : Obligations.StoresAreSeenByTheNextFetch := by
  intro x j k s hm hx hpc hj hk hkx
  let t := s.advance.setMem (s.mem.writeBytes s.I.toNat (s.block x))
  have htpc : t.pc.toNat = s.I.toNat + j.val := (State.advance_pc_toNat (by omega)).trans hj.symm
  have hjx : j ≤ x := Fin.le_def.2 (by have := Fin.le_def.1 hkx; omega)
  refine ⟨t, wordAt t, execLdMemV_ok x hx, fetchWord_eq_wordAt (by omega), ?_⟩
  have hhi : t.mem.read (s.I.toNat + j.val) = s.readV j := State.read_storeBlock hm hx hjx
  have hlo : t.mem.read (s.I.toNat + k.val) = s.readV k := State.read_storeBlock hm hx hkx
  rw [wordAt_toNat, htpc, hhi, Nat.add_assoc, ← hk, hlo]

/-- Settles O7: the range check of `State.fetchWord` is its only one, and a step raises what fetch answers. -/
theorem fetchRaisesPcOutOfRange : Obligations.FetchRaisesPcOutOfRange := fun s =>
  ⟨fun h => ⟨fetchWord_eq_wordAt h, wordAt_toNat s⟩,
    fun h => ⟨State.fetchWord_error h, fun hrun => ⟨_, step_error hrun (State.fetchInstr_error_of_pc h), rfl⟩⟩⟩

/-- Settles O50: LOAD of a ROM that fits is one write of several bytes from 0x200 up, whose reads and frame are known. -/
theorem loadCopiesTheRomOrReportsCapacity : Obligations.LoadCopiesTheRomOrReportsCapacity := by
  refine fun rom s => ⟨fun hrom => ⟨_, perform_load_ok hrom s, rfl, fun hm k b hb => ?_, ?_⟩,
    fun hrom => perform_load_error hrom s⟩
  · obtain ⟨hk, rfl⟩ := List.getElem?_eq_some_iff.1 hb
    exact State.read_copyRom hm hrom hk
  · exact (Frame.refl s _).writeBytes fun k hk => ⟨k, hk, rfl⟩

/-- Settles O52: after construction and after RESET memory lists no cell, so every address reads as unlisted. -/
theorem resetMemoryIsFontAndZeroes : Obligations.ResetMemoryIsFontAndZeroes := by
  refine ⟨fontBytes_length, fun m hm => ?_⟩
  have hempty : m = [] := by
    rcases hm with rfl | ⟨s, t, ht, rfl⟩
    · rfl
    · cases ht
      rfl
  subst hempty
  exact ⟨fun _ _ => Memory.unlisted_font, fun _ => Memory.unlisted_zero⟩

end Sys2Proof.Claims

/-!
SUPPORT. The opcode table: its rows are disjoint, so a word decodes to what the one row that hits it makes of it; and the
words that a row hits, by family and low bits.
-/

namespace Sys2Proof

/-! ## The rows are disjoint (R90) -/

/-- Two rows that hit the same word agree in the bits that both fix. -/
theorem OpcodeRow.pattern_and_mask_eq {r q : OpcodeRow} {w : Word} (hr : r.hits w = true) (hq : q.hits w = true) :
    r.pattern &&& q.mask = q.pattern &&& r.mask := by
  rw [OpcodeRow.hits, beq_iff_eq] at hr hq
  rw [← hr, ← hq, BitVec.and_assoc, BitVec.and_assoc, BitVec.and_comm r.mask]

/-- Any two rows of the table differ in a bit that both fix. -/
theorem opcodeTable_pairwise_clash : opcodeTable.Pairwise fun r q => r.pattern &&& q.mask ≠ q.pattern &&& r.mask := by
  decide

theorem opcodeTable_nodup : opcodeTable.Nodup :=
  opcodeTable_pairwise_clash.imp fun hclash heq => hclash (by rw [heq])

theorem hits_unique {w : Word} {r q : OpcodeRow} (hr : r ∈ opcodeTable) (hq : q ∈ opcodeTable) (hrw : r.hits w = true)
    (hqw : q.hits w = true) : r = q := by
  by_contra hne
  have hsymm : Std.Symm fun r q : OpcodeRow => r.pattern &&& q.mask ≠ q.pattern &&& r.mask := ⟨fun _ _ => Ne.symm⟩
  exact opcodeTable_pairwise_clash.forall hr hq hne (OpcodeRow.pattern_and_mask_eq hrw hqw)

/-- Looking a word up finds the row that hits it, whatever the order of the rows. -/
theorem find?_hits_iff {rows : List OpcodeRow} (hrows : rows.Perm opcodeTable) {w : Word} {r : OpcodeRow} :
    (rows.find? fun r => r.hits w) = some r ↔ r ∈ opcodeTable ∧ r.hits w = true := by
  have hfound {q} (hq : (rows.find? fun r => r.hits w) = some q) : q ∈ opcodeTable ∧ q.hits w = true :=
    ⟨hrows.subset (List.mem_of_find?_eq_some hq), List.find?_some (p := (OpcodeRow.hits · w)) hq⟩
  refine ⟨hfound, fun ⟨hr, hrw⟩ => ?_⟩
  have hsome : (rows.find? fun r => r.hits w).isSome := List.find?_isSome.2 ⟨r, hrows.symm.subset hr, hrw⟩
  obtain ⟨q, hq⟩ := Option.isSome_iff_exists.1 hsome
  obtain ⟨hqt, hqw⟩ := hfound hq
  rw [hq, hits_unique hr hqt hrw hqw]

/-- R95: a word decodes to what a row that hits it makes of the word's fields. -/
theorem decodeWord_eq_some_iff {w : Word} {i : Instr} :
    decodeWord w = some i ↔ ∃ r ∈ opcodeTable, r.hits w = true ∧ r.build (Fields.ofWord w) = i := by
  simp only [decodeWord, Option.map_eq_some_iff, find?_hits_iff (List.Perm.refl _), and_assoc]

theorem decodeWord_eq_none_iff {w : Word} : decodeWord w = none ↔ ∀ r ∈ opcodeTable, ¬ r.hits w = true := by
  rw [decodeWord, Option.map_eq_none_iff, List.find?_eq_none]

/-! ## Decoding an encoding (R83, R85) -/

open Laws.EncodesInItsRow in
theorem encodesInItsRow (i : Instr) : Statement i := by
  cases i
  exacts [cls, ret, jp _, call _, seImm _ _, sneImm _ _, seReg _ _, ldImm _ _, addImm _ _, ldReg _ _, orReg _ _,
    andReg _ _, xorReg _ _, addReg _ _, sub _ _, shr _ _, subn _ _, shl _ _, sneReg _ _, ldI _, jpV0 _, rnd _ _,
    drw _ _ _, skp _, sknp _, ldVDt _, ldK _, ldDtV _, ldStV _, addI _, ldF _, ldB _, ldMemV _, ldVMem _]

/-- An instruction's own row hits its encoding, and no other row does. -/
@[simp] theorem decodeWord_encode (i : Instr) : decodeWord (encode i) = some i := by
  obtain ⟨r, hr, -, hhits, hbuild⟩ := encodesInItsRow i
  exact decodeWord_eq_some_iff.2 ⟨r, hr, hhits, hbuild⟩

/-! ## The words that a row hits: the family and the low bits it fixes -/

section
variable {m : String} {p w : Word} {build : Fields → Instr}

theorem hits_F000_iff (hp : p.toNat % 4096 = 0) :
    OpcodeRow.hits ⟨m, p, 0xF000#16, build⟩ w = true ↔ w.toNat / 4096 = p.toNat / 4096 := by
  rw [OpcodeRow.hits_iff, toNat_and_F000]
  dsimp only
  omega

theorem hits_F00F_iff (hp : p.toNat % 4096 < 16) : OpcodeRow.hits ⟨m, p, 0xF00F#16, build⟩ w = true ↔
    w.toNat / 4096 = p.toNat / 4096 ∧ w.toNat % 16 = p.toNat % 4096 := by
  rw [OpcodeRow.hits_iff, toNat_and_F00F]
  dsimp only
  omega

theorem hits_F0FF_iff (hp : p.toNat % 4096 < 256) : OpcodeRow.hits ⟨m, p, 0xF0FF#16, build⟩ w = true ↔
    w.toNat / 4096 = p.toNat / 4096 ∧ w.toNat % 256 = p.toNat % 4096 := by
  rw [OpcodeRow.hits_iff, toNat_and_F0FF]
  dsimp only
  omega

theorem hits_FFFF_iff : OpcodeRow.hits ⟨m, p, 0xFFFF#16, build⟩ w = true ↔
    w.toNat / 4096 = p.toNat / 4096 ∧ w.toNat % 4096 = p.toNat % 4096 := by
  rw [OpcodeRow.hits_iff, toNat_and_FFFF]
  dsimp only
  omega

end

/-- A row makes of a word that it hits the instruction with the word's own number: it drops no bit. -/
theorem number_build_eq {r : OpcodeRow} (hr : r ∈ opcodeTable) {w : Word} (hw : r.hits w = true) :
    (r.build (Fields.ofWord w)).number = w.toNat := by
  revert r
  simp (disch := decide) only [opcodeTable, opcodeRows0to5, opcodeRows6to7, opcodeRows8, opcodeRows9toD, opcodeRowsEF,
    List.forall_mem_append, List.forall_mem_cons, List.not_mem_nil, false_imp_iff, implies_true, and_true,
    hits_F000_iff, hits_F00F_iff, hits_F0FF_iff, hits_FFFF_iff, Instr.number, Fields.ofWord_x, Fields.ofWord_y,
    Fields.ofWord_n, Fields.ofWord_nn, Fields.ofWord_nnn, BitVec.toNat_ofNat]
  -- an implication per row: the bits it fixes and the fields it keeps make the word's number
  and_intros <;> omega

theorem encode_of_decodeWord {w : Word} {i : Instr} (h : decodeWord w = some i) : encode i = w := by
  obtain ⟨r, hr, hhits, rfl⟩ := decodeWord_eq_some_iff.1 h
  rw [← BitVec.toNat_inj, encode_toNat, number_build_eq hr hhits]

end Sys2Proof

/-!
PROOF. Decoding and encoding (O1, O2, O3), the disjoint table (O5), and the step that a fetched word leads to (O6, O11).
-/

namespace Sys2Proof.Claims

open Sys2Proof.Machine

theorem fetchInstr_of_fetches {s : State} {i : Instr} (h : Fetches s i) : s.fetchInstr = .ok i := by
  obtain ⟨hpc, hdecode⟩ := h
  simp only [State.fetchInstr, fetchWord_eq_wordAt hpc, hdecode]

theorem fetchInstr_of_unsupported {s : State} (hpc : s.pc.toNat + 1 < 4096) (h : decodeWord (wordAt s) = none) :
    s.fetchInstr = .error (.unsupportedOpcode (wordAt s)) := by
  simp only [State.fetchInstr, fetchWord_eq_wordAt hpc, h]

/-- An instruction raises or completes, and both are next states (R233). -/
theorem exec_answers (i : Instr) (s : State) : ∃ t, exec i s = .next t := by
  rcases exec_raises_or_frames i s with ⟨e, hraise⟩ | ⟨t, ht, -⟩
  · exact ⟨_, hraise⟩
  · exact ⟨t, ht⟩

/-- Settles O2: the two bytes make the word again, and the word decodes by the instruction's own row. -/
theorem decodeOfEncodeIsTheInstruction : Obligations.DecodeOfEncodeIsTheInstruction := by
  intro i rest
  rw [encodeBytes, decode_wordBytes, decodeWord_encode]

/-- Settles O3: the instruction's number is the word's, by the row that hits it. -/
theorem encodeOfDecodeIsTheWord : Obligations.EncodeOfDecodeIsTheWord := fun _ _ => encode_of_decodeWord

/-- Settles O5: two rows that hit a word are equal, and the table lists no row twice; so the row found does not depend on
the order. -/
theorem opcodeRowsAreDisjoint : Obligations.OpcodeRowsAreDisjoint := by
  refine ⟨rfl, fun w i j hi hj => ?_, fun rows hrows w => ?_⟩
  · exact opcodeTable_nodup.injective_get (hits_unique (List.get_mem _ i) (List.get_mem _ j) hi hj)
  · have hfind : (rows.find? fun r => r.hits w) = opcodeTable.find? fun r => r.hits w :=
      Option.ext fun r => (find?_hits_iff hrows).trans (find?_hits_iff (List.Perm.refl _)).symm
    rw [decodeWord, hfind]

/-- Settles O11: each of the three ways of a step (`step_cases`) answers a next state. -/
theorem stepAlwaysAnswersANextState : Obligations.StepAlwaysAnswersANextState := by
  refine ⟨fun s => ?_, exec_answers⟩
  rcases step_cases s with ⟨-, hs⟩ | ⟨-, e, -, hs⟩ | ⟨-, i, -, hs⟩
  · exact ⟨_, hs⟩
  · exact ⟨_, hs⟩
  · exact hs ▸ exec_answers i s

/-- Settles O1: the words are closed, so the table's rows are looked up. -/
theorem specWordsDecode : Obligations.SpecWordsDecode := by
  unfold Obligations.SpecWordsDecode Decodes
  decide

/-- Settles O6: fetch answers the decoded instruction, and step runs what fetch answers. -/
theorem stepRunsTheDecodedInstruction : Obligations.StepRunsTheDecodedInstruction := fun _ _ hrun h =>
  step_ok hrun (fetchInstr_of_fetches h)

end Sys2Proof.Claims

/-!
PROOF. The words that match no row, and their count (O4).
-/

namespace Sys2Proof.Claims

open Sys2Proof.Machine

/-! ## R87's list is what the rows leave -/

/-- Family by family: the rows of the family fix the low bits that R87 does not list. -/
theorem decodeWord_eq_none_iff_unmatched (w : Word) : decodeWord w = none ↔ unmatched w.toNat = true := by
  have hw := w.isLt
  rw [decodeWord_eq_none_iff]
  simp (disch := decide) only [opcodeTable, opcodeRows0to5, opcodeRows6to7, opcodeRows8, opcodeRows9toD, opcodeRowsEF,
    List.forall_mem_append, List.forall_mem_cons, List.not_mem_nil, false_imp_iff, implies_true, and_true,
    hits_F000_iff, hits_F00F_iff, hits_F0FF_iff, hits_FFFF_iff, unmatched]
  generalize hfamily : w.toNat / 4096 = f
  have hf : f < 16 := by omega
  -- simp drops the other families' rows; omega compares what is left in families 0 and 8
  interval_cases f <;> simp <;> omega

/-! ## Counting it: 16 families of 16 blocks of 256 words -/

/-- A range of n blocks of m numbers is counted block by block. -/
theorem countP_range_mul (p : Nat → Bool) (m n : Nat) :
    (List.range (m * n)).countP p = ((List.range n).map fun b => (List.range m).countP fun k => p (m * b + k)).sum := by
  induction n with
  | zero => rfl
  | succ n ih => simp [Nat.mul_succ, List.range_add, List.range_succ, ih, Function.comp_def]

/-- R87's list once more, by the family, the field x and the low byte of the word. -/
def unmatchedFields (family x nn : Nat) : Bool :=
  match family with
  | 0x0 => x != 0 || (nn != 0xE0 && nn != 0xEE)
  | 0x5 | 0x9 => nn % 16 != 0
  | 0x8 => decide (nn % 16 ∈ [0x8, 0x9, 0xA, 0xB, 0xC, 0xD, 0xF])
  | 0xE => decide (nn ∉ [0x9E, 0xA1])
  | 0xF => decide (nn ∉ [0x07, 0x0A, 0x15, 0x18, 0x1E, 0x29, 0x33, 0x55, 0x65])
  | _ => false

theorem unmatched_eq_unmatchedFields {f x nn : Nat} (hf : f < 16) (hx : x < 16) (hnn : nn < 256) :
    unmatched (4096 * f + (256 * x + nn)) = unmatchedFields f x nn := by
  have hfamily : (4096 * f + (256 * x + nn)) / 4096 = f := by omega
  have hnibble : (4096 * f + (256 * x + nn)) % 16 = nn % 16 := by omega
  have hbyte : (4096 * f + (256 * x + nn)) % 256 = nn := by omega
  simp only [unmatched, hfamily, hnibble, hbyte]
  interval_cases f <;> simp [unmatchedFields]
  -- left is family 0, where the list names two words
  rw [Bool.eq_iff_iff]
  simp
  omega

/-- How many words of a family with the field x match no row. -/
def unmatchedInBlock (family x : Nat) : Nat :=
  match family with
  | 0x0 => if x = 0 then 254 else 256
  | 0x5 | 0x9 => 240
  | 0x8 => 112
  | 0xE => 254
  | 0xF => 247
  | _ => 0

theorem countP_unmatchedFields (f x : Nat) : (List.range 256).countP (unmatchedFields f x) = unmatchedInBlock f x := by
  refine (countP_range_mul (unmatchedFields f x) 16 16).trans ?_
  unfold unmatchedFields unmatchedInBlock
  split
  · split
    · next hx => subst hx; decide
    · next hx => rw [bne_iff_ne.2 hx]; decide
  all_goals decide

theorem countP_unmatched_block {f x : Nat} (hf : f < 16) (hx : x < 16) :
    (List.range 256).countP (fun nn => unmatched (4096 * f + (256 * x + nn))) = unmatchedInBlock f x := by
  rw [← countP_unmatchedFields]
  refine List.countP_congr fun nn hnn => ?_
  rw [unmatched_eq_unmatchedFields hf hx (List.mem_range.1 hnn)]

theorem countP_unmatched_family {f : Nat} (hf : f < 16) : (List.range 4096).countP (fun nnn => unmatched (4096 * f + nnn)) =
    ((List.range 16).map (unmatchedInBlock f)).sum := by
  refine (countP_range_mul _ 256 16).trans (congrArg List.sum (List.map_congr_left fun x hx => ?_))
  exact countP_unmatched_block hf (List.mem_range.1 hx)

theorem countP_unmatched : (List.range 65536).countP unmatched = 21582 := by
  calc (List.range 65536).countP unmatched
      = ((List.range 16).map fun f => (List.range 4096).countP fun nnn => unmatched (4096 * f + nnn)).sum :=
        countP_range_mul unmatched 4096 16
    _ = ((List.range 16).map fun f => ((List.range 16).map (unmatchedInBlock f)).sum).sum :=
        congrArg List.sum (List.map_congr_left fun f hf => countP_unmatched_family (List.mem_range.1 hf))
    _ = 21582 := by decide

theorem countP_not_eq (p : Nat → Bool) (l : List Nat) : l.countP (fun w => !p w) = l.length - l.countP p := by
  have h := l.length_eq_countP_add_countP p
  simp only [Bool.not_eq_true, Bool.decide_eq_false] at h
  omega

/-- The 43954 instruction words are the others. -/
theorem countP_not_unmatched : (List.range 65536).countP (fun w => !unmatched w) = 43954 := by
  rw [countP_not_eq, countP_unmatched, List.length_range]

/-- Settles O4: R87's list is what the rows leave, it is counted by blocks, and a step raises what decoding answers. -/
theorem unmatchedWordsAreExactlyTheListed : Obligations.UnmatchedWordsAreExactlyTheListed := by
  refine ⟨decodeWord_eq_none_iff_unmatched, countP_unmatched, countP_not_unmatched, fun s hrun hpc h => ?_⟩
  have hnone := (decodeWord_eq_none_iff_unmatched _).2 h
  exact ⟨_, step_error hrun (fetchInstr_of_unsupported hpc hnone), rfl⟩

end Sys2Proof.Claims

/-!
PROOF. The display: 00E0 (O18) and DXYN, which toggles the pixels under its sprite's set bits (O19 to O22).
-/

namespace Sys2Proof.Machine

theorem flagOf_eq_one_iff {c : Bool} : flagOf c = 1 ↔ c = true := by cases c <;> decide

theorem flagOf_eq_zero_iff {c : Bool} : flagOf c = 0 ↔ c = false := by cases c <;> decide

theorem Memory.readBytes_getElem?_eq_some {m : Memory} {base n k : Nat} {b : Byte} :
    (m.readBytes base n)[k]? = some b ↔ k < n ∧ m.read (base + k) = b := by
  simp [List.getElem?_eq_some_iff, Memory.readBytes_getElem]

/-- The state in which DXYN completes: the sprite drawn, and VF the collision, written last (R111). -/
def State.afterDraw (s : State) (x y : RegIdx) (n : RowCount) : State :=
  (s.advance.setFb (s.drawn x y n).1).writeVF (collisionFlag (s.drawn x y n).2)

end Sys2Proof.Machine

namespace Sys2Proof.Claims

open Sys2Proof.Machine

/-- Every instruction is what its own number decodes to. -/
theorem decodes_number (i : Instr) : Decodes i.number i := by
  rw [Decodes, ← encode_toNat, BitVec.ofNat_toNat, BitVec.setWidth_eq, decodeWord_encode]

section
variable {s : State} {x y : RegIdx} {n : RowCount} {row : Fin 32} {col : Fin 64}

theorem lit_iff_spriteLit :
    Lit s x y n row col ↔ spriteLit (s.originRow y) (s.originCol x) 0 (s.sprite n) row col = true := by
  simp [spriteLit_iff, Lit, State.sprite, State.base, State.originRow, State.originCol, Memory.readBytes_getElem?_eq_some,
    and_assoc]

/-! ## One draw -/

theorem exec_drw_eq_afterDraw (h : n.val = 0 ∨ s.I.toNat + n.val ≤ 4096) :
    exec (.drw x y n) s = .next (s.afterDraw x y n) :=
  execDrw_ok x y h

theorem frame_afterDraw : Frame s (s.afterDraw x y n) fun p => p = .v 15 ∨ ∃ row col, p = .pixel row col :=
  ((Frame.advance s _).setFb (fun row col => .inr ⟨row, col, rfl⟩) _).writeV (.inl rfl) _

/-- A sprite has at most 15 rows, so it does not wrap onto itself (R115). -/
theorem pixel_afterDraw : Framebuffer.pixel (s.afterDraw x y n).fb row col =
    (spriteLit (s.originRow y) (s.originCol x) 0 (s.sprite n) row col ^^ Framebuffer.pixel s.fb row col) :=
  (drawRows_spec _ _ 0 (s.sprite n) (by rw [State.sprite_length]; omega) (s.fb, false)).1 row col

theorem pixel_afterDraw_of_lit (h : Lit s x y n row col) :
    Framebuffer.pixel (s.afterDraw x y n).fb row col = !Framebuffer.pixel s.fb row col := by
  rw [pixel_afterDraw, lit_iff_spriteLit.1 h, Bool.true_xor]

theorem pixel_afterDraw_of_not_lit (h : ¬ Lit s x y n row col) :
    Framebuffer.pixel (s.afterDraw x y n).fb row col = Framebuffer.pixel s.fb row col := by
  rw [pixel_afterDraw, Bool.eq_false_iff.2 (mt lit_iff_spriteLit.2 h), Bool.false_xor]

theorem drawn_collides_iff :
    (s.drawn x y n).2 = true ↔ ∃ row col, Lit s x y n row col ∧ Framebuffer.pixel s.fb row col = true := by
  rw [State.drawn, (drawRows_spec _ _ 0 (s.sprite n) (by rw [State.sprite_length]; omega) (s.fb, false)).2]
  simp [lit_iff_spriteLit]

theorem afterDraw_VF : (s.afterDraw x y n).readV 15 = flagOf (s.drawn x y n).2 := by
  rw [State.afterDraw, State.readV_writeVF, if_pos rfl, collisionFlag]

theorem afterDraw_VF_eq_one_iff : (s.afterDraw x y n).readV 15 = 1 ↔
    ∃ row col, Lit s x y n row col ∧ Framebuffer.pixel s.fb row col = true := by
  rw [afterDraw_VF, flagOf_eq_one_iff, drawn_collides_iff]

theorem afterDraw_VF_eq_zero_iff : (s.afterDraw x y n).readV 15 = 0 ↔
    ∀ row col, Lit s x y n row col → Framebuffer.pixel s.fb row col = false := by
  rw [afterDraw_VF, flagOf_eq_zero_iff, Bool.eq_false_iff, Ne, drawn_collides_iff]
  simp only [not_exists, not_and, Bool.not_eq_true]

/-- A draw writes neither the sprite nor I, and of the registers only VF; so a second one has the same set bits. -/
theorem lit_afterDraw_iff (hx : x ≠ 15) (hy : y ≠ 15) : Lit (s.afterDraw x y n) x y n row col ↔ Lit s x y n row col := by
  simp [Lit, State.afterDraw, hx, hy]

/-! ## Two draws -/

/-- R116: what the first draw has toggled, the second toggles back. -/
theorem fb_afterDraw_afterDraw (hx : x ≠ 15) (hy : y ≠ 15) : ((s.afterDraw x y n).afterDraw x y n).fb = s.fb := by
  refine Framebuffer.eq_of_pixel_eq fun row col => ?_
  have hsame := lit_afterDraw_iff (s := s) (n := n) (row := row) (col := col) hx hy
  by_cases h : Lit s x y n row col
  · rw [pixel_afterDraw_of_lit (hsame.2 h), pixel_afterDraw_of_lit h, Bool.not_not]
  · rw [pixel_afterDraw_of_not_lit (mt hsame.1 h), pixel_afterDraw_of_not_lit h]

/-- R116: the second draw collides where the first has switched a pixel on. -/
theorem afterDraw_afterDraw_VF_eq_one_iff (hx : x ≠ 15) (hy : y ≠ 15) :
    ((s.afterDraw x y n).afterDraw x y n).readV 15 = 1 ↔
      ∃ row col, Lit s x y n row col ∧ Framebuffer.pixel s.fb row col = false := by
  rw [afterDraw_VF_eq_one_iff]
  refine exists₂_congr fun row col => ?_
  rw [lit_afterDraw_iff hx hy]
  refine and_congr_right fun h => ?_
  rw [pixel_afterDraw_of_lit h, Bool.not_eq_true']

end

/-- Settles O19: the row's number is the instruction's, and the pixels and VF are those of one draw. -/
theorem drawXorsTheSpriteAndOrsTheCollision : Obligations.DrawXorsTheSpriteAndOrsTheCollision := by
  refine fun x y n => ⟨decodes_number (.drw x y n), fun s hn hI => ?_⟩
  refine ⟨s.afterDraw x y n, exec_drw_eq_afterDraw (.inr (by omega)), ?_⟩
  exact ⟨fun _ _ => pixel_afterDraw_of_lit, fun _ _ => pixel_afterDraw_of_not_lit, afterDraw_VF_eq_one_iff.2,
    afterDraw_VF_eq_zero_iff.2, rfl, frame_afterDraw⟩

/-- Settles O22: the second draw is a draw in the state after the first, where I is the same. -/
theorem drawTwiceRestoresTheFramebuffer : Obligations.DrawTwiceRestoresTheFramebuffer := by
  intro x y n s hx hy hI
  refine ⟨s.afterDraw x y n, (s.afterDraw x y n).afterDraw x y n, exec_drw_eq_afterDraw hI,
    exec_drw_eq_afterDraw hI, fb_afterDraw_afterDraw hx hy, afterDraw_afterDraw_VF_eq_one_iff hx hy, ?_⟩
  rw [afterDraw_VF, flagOf_eq_zero_iff, flagOf_eq_one_iff]
  exact (Bool.eq_false_or_eq_true _).symm

/-- Settles O18: CLS answers the advanced state with every pixel off. -/
theorem clearDisplayTurnsEveryPixelOff : Obligations.ClearDisplayTurnsEveryPixelOff :=
  ⟨decodes_number .cls, fun s => ⟨_, rfl, Framebuffer.pixel_allOff, rfl,
    (Frame.advance s _).setFb (fun row col => ⟨row, col, rfl⟩) _⟩⟩

/-- Settles O20: the sprite of no rows leaves the framebuffer, so the state is the advanced one with VF = 0. -/
theorem drawOfNoRowsOnlyClearsVF : Obligations.DrawOfNoRowsOnlyClearsVF := by
  intro x y s
  have hexec : exec (.drw x y 0) s = .next (s.advance.writeVF 0) := exec_drw_eq_afterDraw (n := 0) (.inl rfl)
  exact ⟨_, hexec, by rw [State.readV_writeVF, if_pos rfl], rfl, (Frame.advance s (· = .v 15)).writeV rfl 0⟩

/-- Settles O21: the range check comes first and names the lowest bad address. -/
theorem drawOutOfRangeRaises : Obligations.DrawOutOfRangeRaises := fun x y _ _ hn hI =>
  execDrw_error x y hn (by omega)

end Sys2Proof.Claims

/-!
PROOF. Control flow: 00EE (O23), 1NNN (O24), 2NNN (O25), BNNN (O26), the skips (O27, O28), and calls with their returns (O29).
-/

namespace Sys2Proof.Machine

theorem zextAddr_toNat (nnn : Addr12) : (zextAddr nnn).toNat = nnn.toNat := BitVec.toNat_setWidth_of_le (by decide)

theorem zextByte_toNat (v : Byte) : (zextByte v).toNat = v.toNat := BitVec.toNat_setWidth_of_le (by decide)

/-- R143: a byte and an address are far below 65536, so BNNN's sum does not wrap. -/
theorem zextByte_add_zextAddr_toNat (v : Byte) (nnn : Addr12) : (zextByte v + zextAddr nnn).toNat = v.toNat + nnn.toNat := by
  have := v.isLt
  have := nnn.isLt
  rw [BitVec.toNat_add, zextByte_toNat, zextAddr_toNat]
  omega

/-- R132: with the topmost occupied slot named k, pop reads it and leaves k slots occupied. -/
theorem State.pop_of_top {s : State} {k : Fin 16} (h : s.SP.val = k.val + 1) (pc0 : Word) :
    s.pop pc0 = .ok (s.stack[k.val], { s with SP := k.castSucc }) := by
  have hk : s.SP.val - 1 = k.val := by omega
  refine State.pop_eq_ok.2 ⟨by omega, ?_⟩
  simp only [hk]
  rfl

/-- R150: a skip goes one instruction past the next one. -/
theorem State.advance_skipIf_pc (s : State) (c : Bool) : (s.advance.skipIf c).pc = if c then s.pc + 4 else s.pc + 2 := by
  have h4 : s.pc + 2 + 2 = s.pc + 4 := BitVec.add_assoc s.pc 2 2
  rw [State.skipIf_pc, State.advance_pc, h4]

end Sys2Proof.Machine

namespace Sys2Proof.Claims

open Sys2Proof.Machine

section
variable {i : Instr} {s : State} {k : Fin 16}

/-! ## Calls and returns -/

/-- R140: 00EE with k the topmost occupied slot. -/
theorem ret_answers (h : s.SP.val = k.val + 1) : Answers .ret s fun t =>
    t.pc = s.stack[k.val] ∧ t.SP.val = k.val ∧ Frame s t fun p => p = .sp := by
  refine ⟨{ s with pc := s.stack[k.val], SP := k.castSucc }, ?_, rfl, rfl, ?_⟩
  · rw [exec_ret, execRet, State.pop_of_top (s := s.advance) h]
    rfl
  · exact ((Frame.refl s (· = .sp)).setPc _).setSP rfl _

/-- R142: 2NNN with k the lowest free slot. -/
theorem call_answers (nnn : Addr12) (h : s.SP.val = k.val) : Answers (.call nnn) s fun t =>
    t.stack[k.val] = s.pc + 2 ∧ t.SP.val = k.val + 1 ∧ t.pc.toNat = nnn.toNat ∧
      Frame s t fun p => p = .sp ∨ p = .slot k := by
  have hk : s.SP.val < 16 := h ▸ k.isLt
  obtain rfl : k = ⟨s.SP.val, hk⟩ := Fin.ext h.symm
  have keep := Frame.refl s fun p => p = .sp ∨ p = .slot ⟨s.SP.val, hk⟩
  exact ⟨_, execCall_ok nnn hk, Vector.getElem_set_self _, rfl, zextAddr_toNat nnn,
    ((keep.setSlot (.inr rfl) _).setSP (.inl rfl) _).setPc _⟩

/-! ## Skips -/

theorem skipIfEq_answers {a b : Byte} (h : exec i s = .next (s.advance.skipIf (a == b))) : Answers i s fun t =>
    (t.pc = if a = b then s.pc + 4 else s.pc + 2) ∧ Frame s t fun _ => False := by
  refine ⟨_, h, ?_, (Frame.advance s _).skipIf _⟩
  simp only [State.advance_skipIf_pc, beq_iff_eq]

theorem skipIfNe_answers {a b : Byte} (h : exec i s = .next (s.advance.skipIf (a != b))) : Answers i s fun t =>
    (t.pc = if a = b then s.pc + 2 else s.pc + 4) ∧ Frame s t fun _ => False := by
  refine ⟨_, h, ?_, (Frame.advance s _).skipIf _⟩
  simp only [State.advance_skipIf_pc, bne_iff_ne, ne_eq, ite_not]

/-- R87: families 5 and 9 have the low nibble 0 only. -/
theorem decodeWord_skipReg_eq_none {f : Nat} (hf : f = 5 ∨ f = 9) (x y : RegIdx) {n : Fin 16} (hn : n ≠ 0) :
    decodeWord (BitVec.ofNat 16 (f * 4096 + x.val * 256 + y.val * 16 + n.val)) = none := by
  have hn0 : n.val ≠ 0 := Fin.val_ne_zero_iff.2 hn
  rw [decodeWord_eq_none_iff_unmatched, BitVec.toNat_ofNat, Nat.mod_eq_of_lt (by omega)]
  have hfamily : (f * 4096 + x.val * 256 + y.val * 16 + n.val) / 4096 = f := by omega
  have hnibble : (f * 4096 + x.val * 256 + y.val * 16 + n.val) % 16 = n.val := by omega
  rcases hf with rfl | rfl <;> simp [unmatched, hfamily, hnibble, hn0]

end

/-- Settles O29: the second call writes the slot above the first one's, and a return writes none; so each return reads the
address that its call pushed. -/
theorem callsReturnInLifoOrder : Obligations.CallsReturnInLifoOrder := by
  refine ⟨fun s a b hSP => ?_, fun s k pc0 h => ⟨_, State.pop_of_top h pc0, rfl, rfl⟩,
    fun s pc0 h => State.pop_eq_error.2 ⟨h, rfl⟩⟩
  obtain ⟨first, hfirst⟩ : ∃ k : Fin 16, s.SP.val = k.val := ⟨⟨s.SP.val, by omega⟩, rfl⟩
  obtain ⟨second, hsecond⟩ : ∃ k : Fin 16, first.val + 1 = k.val := ⟨⟨first.val + 1, by omega⟩, rfl⟩
  have hne : first ≠ second := Fin.ne_of_lt (by omega)
  obtain ⟨t, ht, htSlot, htSP, -, -⟩ := call_answers a hfirst
  obtain ⟨u, hu, huSlot, huSP, -, huFrame⟩ := call_answers b (htSP.trans hsecond)
  obtain ⟨v, hv, hvPc, hvSP, hvFrame⟩ := ret_answers huSP
  obtain ⟨w, hw, hwPc, hwSP, -⟩ := ret_answers (hvSP.trans hsecond.symm)
  refine ⟨t, u, v, w, ht, hu, hv, hw, hvPc.trans huSlot, ?_, Fin.ext (hwSP.trans hfirst.symm)⟩
  calc w.pc = v.stack[first.val] := hwPc
    _ = u.stack[first.val] := hvFrame (.slot first) nofun
    _ = t.stack[first.val] := huFrame (.slot first) (by simp [hne])
    _ = s.pc + 2 := htSlot

/-- Settles O23: pop answers the slot below the pointer, and the frames keep the slots of everything but a call. -/
theorem returnPopsThePc : Obligations.ReturnPopsThePc :=
  ⟨decodes_number .ret, fun _ _ => ret_answers, fun _ => execRet_error, fun _ _ _ hcall h => exec_stack h hcall⟩

/-- Settles O24: the target replaces pc, so a jump to pc itself writes what is there. -/
theorem jumpSetsThePc : Obligations.JumpSetsThePc := by
  refine fun nnn => ⟨decodes_number (.jp nnn), fun s => ⟨?_, fun hself => ?_⟩⟩
  · refine ⟨s.advance.setPc (zextAddr nnn), rfl, zextAddr_toNat nnn, (Frame.advance s _).setPc _, fun hend => ?_⟩
    have hpc : zextAddr nnn = 0xFFF := BitVec.eq_of_toNat_eq ((zextAddr_toNat nnn).trans hend)
    rw [hpc]
    exact State.fetchWord_error (s := s.advance.setPc 0xFFF) (Nat.le_refl 4096)
  · have hpc : zextAddr nnn = s.pc := BitVec.eq_of_toNat_eq ((zextAddr_toNat nnn).trans hself)
    rw [exec_jp, execJp, hpc]
    rfl

/-- Settles O25: push writes at the pointer, or raises when no slot is free. -/
theorem callPushesTheReturnAddress : Obligations.CallPushesTheReturnAddress := fun nnn =>
  ⟨decodes_number (.call nnn), fun _ _ => call_answers nnn, fun _ => execCall_error nnn⟩

/-- Settles O26: the sum of a byte and an address fits into pc. -/
theorem jumpWithOffsetAddsV0 : Obligations.JumpWithOffsetAddsV0 := fun nnn =>
  ⟨decodes_number (.jpV0 nnn), fun s =>
    ⟨_, rfl, zextByte_add_zextAddr_toNat (s.readV 0) nnn, (Frame.advance s _).setPc _⟩⟩

/-- Settles O27: both compare V[x] with nn, and differ in which outcome skips. -/
theorem skipsOnImmediateComparison : Obligations.SkipsOnImmediateComparison := fun x nn =>
  ⟨decodes_number (.seImm x nn), decodes_number (.sneImm x nn), fun _ => ⟨skipIfEq_answers rfl, skipIfNe_answers rfl⟩⟩

/-- Settles O28: both compare V[x] with V[y], and R87 lists the words with another low nibble. -/
theorem skipsOnRegisterComparison : Obligations.SkipsOnRegisterComparison := fun x y =>
  ⟨decodes_number (.seReg x y), decodes_number (.sneReg x y),
    fun _ hn => ⟨decodeWord_skipReg_eq_none (.inl rfl) x y hn, decodeWord_skipReg_eq_none (.inr rfl) x y hn⟩,
    fun _ => ⟨skipIfEq_answers rfl, skipIfNe_answers rfl⟩⟩

end Sys2Proof.Claims

/-!
PROOF. Registers and arithmetic: the loads (O30, O32), the immediate sum (O31), the bitwise operations (O33), the sum, the
differences and the shifts with their flag (O34, O35, O36), and the random byte (O37).
-/

namespace Sys2Proof.Machine

/-! ## The flags as numbers (R182) -/

theorem flagOf_toNat (c : Bool) : (flagOf c).toNat = c.toNat := by cases c <;> rfl

section
variable (a b : Byte)

theorem carryFlag_eq_ite : carryFlag a b = if 255 < a.toNat + b.toNat then 1 else 0 := by
  simp only [carryFlag, flagOf, decide_eq_true_eq]

theorem notBorrowFlag_eq_ite : notBorrowFlag a b = if a.toNat < b.toNat then 0 else 1 := by
  simp only [notBorrowFlag, flagOf, Bool.not_eq_true', decide_eq_false_iff_not, ite_not]

theorem lowBitFlag_toNat : (lowBitFlag a).toNat = a.toNat % 2 := by
  rw [lowBitFlag, flagOf_toNat, BitVec.getLsbD, Nat.toNat_testBit, Nat.pow_zero, Nat.div_one]

theorem highBitFlag_toNat : (highBitFlag a).toNat = a.toNat / 128 := by
  have := a.isLt
  rw [highBitFlag, flagOf_toNat, BitVec.getLsbD, Nat.toNat_testBit]
  omega

/-! ## The values as numbers (R180) -/

/-- R180: a difference wraps as the remainder of the integer difference. -/
theorem toNat_sub_eq_emod : ((a - b).toNat : Int) = ((a.toNat : Int) - b.toNat) % 256 := by
  have := b.isLt
  rw [BitVec.toNat_sub]
  omega

theorem toNat_shiftRight_one : (a >>> 1).toNat = a.toNat / 2 := by
  rw [BitVec.toNat_ushiftRight, Nat.shiftRight_one]

theorem toNat_shiftLeft_one : (a <<< 1).toNat = a.toNat * 2 % 256 := by
  rw [BitVec.toNat_shiftLeft, Nat.shiftLeft_eq, Nat.pow_one]

end

/-! ## Reading the registers just written -/

section
variable {s : State} {x : RegIdx} {v f : Byte}

theorem State.readV_writeV_self : (s.writeV x v).readV x = v := by
  rw [State.readV_writeV, if_pos rfl]

theorem State.readVF_writeVWithFlag : (s.writeVWithFlag x v f).readV 15 = f := by
  rw [State.readV_writeVWithFlag, if_pos rfl]

theorem State.readV_writeVWithFlag_self (hx : x ≠ 15) : (s.writeVWithFlag x v f).readV x = v := by
  rw [State.readV_writeVWithFlag, if_neg hx, if_pos rfl]

end

end Sys2Proof.Machine

namespace Sys2Proof.Claims

open Sys2Proof.Machine

section
variable {s : State} {x : RegIdx} {v f : Byte}

theorem frame_writeV : Frame s (s.advance.writeV x v) fun p => p = .v x :=
  (Frame.advance s (· = .v x)).writeV rfl v

theorem frame_writeVWithFlag : Frame s (s.advance.writeVWithFlag x v f) fun p => p = .v x ∨ p = .v 15 :=
  ((Frame.advance s _).writeV (.inl rfl) v).writeV (.inr rfl) f

end

/-- R175 for a given draw: bit b of V[x] is that of the draw and of nn, and the draw is counted. -/
theorem rndWithDraw_next (r : Byte) (x : RegIdx) (nn : Byte) (s : State) : ∃ t, rndWithDraw r x nn s = .next t ∧
    (∀ b, (t.readV x).getLsbD b = (r.getLsbD b && nn.getLsbD b)) ∧ (nn = 0 → t.readV x = 0) ∧ t.pc = s.pc + 2 ∧
    t.draws = s.draws + 1 ∧ Frame s t fun p => p = .v x ∨ p = .draws := by
  refine ⟨_, rfl, fun b => ?_, fun hnn => ?_, rfl, rfl, ?_⟩
  · rw [State.readV_writeV_self, BitVec.getLsbD_and]
  · rw [State.readV_writeV_self, hnn]
    exact BitVec.and_zero
  · exact ((Frame.advance s _).countDraw (.inr rfl)).writeV (.inl rfl) _

/-- Settles O30: the advanced state with nn in V[x]. -/
theorem loadImmediateSetsVx : Obligations.LoadImmediateSetsVx := fun x nn =>
  ⟨decodes_number (.ldImm x nn), fun _ => ⟨_, rfl, State.readV_writeV_self, rfl, frame_writeV⟩⟩

/-- Settles O31: the sum of bytes is the sum modulo 256. -/
theorem addImmediateWrapsWithoutFlag : Obligations.AddImmediateWrapsWithoutFlag := fun x nn =>
  ⟨decodes_number (.addImm x nn), fun _ =>
    ⟨_, rfl, by rw [State.readV_writeV_self, BitVec.toNat_add], rfl, frame_writeV⟩⟩

/-- Settles O32: the advanced state with V[y] in V[x]. -/
theorem loadRegisterCopiesVy : Obligations.LoadRegisterCopiesVy := fun x y =>
  ⟨decodes_number (.ldReg x y), fun _ => ⟨_, rfl, State.readV_writeV_self, rfl, frame_writeV⟩⟩

/-- Settles O33: each operation on bytes works bit by bit, and V[x] is all that it writes. -/
theorem logicalOperationsWriteNoFlag : Obligations.LogicalOperationsWriteNoFlag := by
  refine fun x y => ⟨decodes_number (.orReg x y), decodes_number (.andReg x y), decodes_number (.xorReg x y), fun s =>
    ⟨⟨_, rfl, fun b => ?_, rfl, frame_writeV⟩, ⟨_, rfl, fun b => ?_, rfl, frame_writeV⟩,
      ⟨_, rfl, fun b => ?_, rfl, frame_writeV⟩⟩⟩
  · rw [State.readV_writeV_self, BitVec.getLsbD_or]
  · rw [State.readV_writeV_self, BitVec.getLsbD_and]
  · rw [State.readV_writeV_self, BitVec.getLsbD_xor]

/-- Settles O34: the flag is written after the sum, so it is what VF holds. -/
theorem addRegistersSetsCarry : Obligations.AddRegistersSetsCarry := by
  refine fun x y => ⟨decodes_number (.addReg x y), fun s => ⟨_, rfl, ?_, fun hx => ?_, rfl, frame_writeVWithFlag⟩⟩
  · rw [State.readVF_writeVWithFlag, carryFlag_eq_ite]
  · rw [State.readV_writeVWithFlag_self hx, BitVec.toNat_add]

/-- Settles O35: SUB and SUBN write the difference and the flag of the same two operands, in either order. -/
theorem subtractionsSetNotBorrow : Obligations.SubtractionsSetNotBorrow := by
  refine fun x y => ⟨decodes_number (.sub x y), decodes_number (.subn x y), fun s =>
    ⟨⟨_, rfl, ?_, fun hx => ?_, rfl, frame_writeVWithFlag⟩, ⟨_, rfl, ?_, fun hx => ?_, rfl, frame_writeVWithFlag⟩⟩⟩
  · rw [State.readVF_writeVWithFlag, notBorrowFlag_eq_ite]
  · rw [State.readV_writeVWithFlag_self hx, toNat_sub_eq_emod]
  · rw [State.readVF_writeVWithFlag, notBorrowFlag_eq_ite]
  · rw [State.readV_writeVWithFlag_self hx, toNat_sub_eq_emod]

/-- Settles O36: neither meaning names y; VF is the bit shifted out, as a number the remainder or the quotient. -/
theorem shiftsIgnoreVyAndSetVF : Obligations.ShiftsIgnoreVyAndSetVF := by
  refine fun x y => ⟨decodes_number (.shr x y), decodes_number (.shl x y), fun s => ⟨fun z => ⟨rfl, rfl⟩,
    ⟨_, rfl, ?_, fun hx => ?_, rfl, frame_writeVWithFlag⟩, ⟨_, rfl, ?_, fun hx => ?_, rfl, frame_writeVWithFlag⟩⟩⟩
  · rw [State.readVF_writeVWithFlag, lowBitFlag_toNat]
  · rw [State.readV_writeVWithFlag_self hx, toNat_shiftRight_one]
  · rw [State.readVF_writeVWithFlag, highBitFlag_toNat]
  · rw [State.readV_writeVWithFlag_self hx, toNat_shiftLeft_one]

/-- Settles O37: the machine's CXNN is the meaning with its next draw, so what holds for every draw holds for it. -/
theorem randomIsMaskedForEveryDraw : Obligations.RandomIsMaskedForEveryDraw := by
  refine fun x nn => ⟨decodes_number (.rnd x nn), fun s =>
    ⟨fun r => rndWithDraw_next r x nn s, ⟨Config.rand8 s.draws, rfl, rfl⟩, ?_⟩⟩
  obtain ⟨t, ht, -, hzero, -, hdraws, -⟩ := rndWithDraw_next (Config.rand8 s.draws) x nn s
  exact ⟨t, ht, hdraws, hzero⟩

end Sys2Proof.Claims

/-!
PROOF. The index register and memory through it: ANNN, FX1E and FX29 (O38 to O40), FX33, FX55 and FX65 (O41 to O43), and
FX65 after FX55 (O44).
-/

namespace Sys2Proof.Machine

/-- R191: I plus a byte wraps modulo 65536. -/
theorem add_zextByte_toNat (a : Word) (v : Byte) : (a + zextByte v).toNat = (a.toNat + v.toNat) % 65536 := by
  rw [BitVec.toNat_add, zextByte_toNat]

/-- R192: five times a byte is at most 1275, so it does not wrap. -/
theorem zextByte_mul_five_toNat (v : Byte) : (zextByte v * 5).toNat = v.toNat * 5 := by
  have := v.isLt
  rw [BitVec.toNat_mul, zextByte_toNat]
  exact Nat.mod_eq_of_lt (show v.toNat * 5 < 65536 by omega)

/-- R194: division and remainder of bytes are those of numbers. -/
theorem bcdDigits_map_toNat (v : Byte) :
    (bcdDigits v).map BitVec.toNat = [v.toNat / 100, v.toNat / 10 % 10, v.toNat % 10] := by
  simp only [bcdDigits, List.map_cons, List.map_nil, BitVec.toNat_udiv, BitVec.toNat_umod]
  rfl

/-- FX33's store: in a canonical memory the byte at I + k is digit k of V[x] (R194). -/
theorem State.read_storeDigits {s : State} (x : RegIdx) (hm : s.mem.wf = true) (hI : s.I.toNat + 2 < 4096) {k d : Nat}
    (hd : [(s.readV x).toNat / 100, (s.readV x).toNat / 10 % 10, (s.readV x).toNat % 10][k]? = some d) :
    ((s.mem.writeBytes s.I.toNat (bcdDigits (s.readV x))).read (s.I.toNat + k)).toNat = d := by
  rw [← bcdDigits_map_toNat] at hd
  obtain ⟨hk, rfl⟩ := List.getElem?_eq_some_iff.1 hd
  rw [List.length_map] at hk
  rw [Memory.read_writeBytes_same _ hm (Nat.succ_le_of_lt hI) k hk, List.getElem_map]

/-- FX65's load: V[r] is the byte at I + r, for every register of the block (R196). -/
theorem State.readV_loadBlock_of_le {s : State} {x r : RegIdx} (hr : r ≤ x) :
    (s.loadBlock x).readV r = s.mem.read (s.I.toNat + r.val) := by
  rw [State.readV_loadBlock, if_pos hr]

end Sys2Proof.Machine

namespace Sys2Proof.Claims

open Sys2Proof.Machine

theorem frame_setI (s : State) (a : Word) : Frame s (s.advance.setI a) fun p => p = .index :=
  (Frame.advance s (· = .index)).setI rfl a

/-- Settles O44: the load reads at I + r, where the store has left V[r] (`State.read_storeBlock`); the same I passes its
range check too. -/
theorem storeThenLoadRestoresTheRegisters : Obligations.StoreThenLoadRestoresTheRegisters := by
  intro x s u hm hx
  refine ⟨_, execLdMemV_ok x hx, fun hsame hI => ⟨_, execLdVMem_ok x (hI ▸ hx), fun r hr => ?_⟩⟩
  calc (u.advance.loadBlock x).readV r = u.mem.read (u.I.toNat + r.val) := State.readV_loadBlock_of_le hr
    _ = u.mem.read (s.I.toNat + r.val) := by rw [hI]
    _ = (s.mem.writeBytes s.I.toNat (s.block x)).read (s.I.toNat + r.val) := hsame r.val hr
    _ = s.readV r := State.read_storeBlock hm hx hr

/-- Settles O38: the advanced state with nnn, widened, in I. -/
theorem loadIndexSetsI : Obligations.LoadIndexSetsI := fun nnn =>
  ⟨decodes_number (.ldI nnn), fun s => ⟨_, rfl, zextAddr_toNat nnn, rfl, frame_setI s _⟩⟩

/-- Settles O39: the sum of words is the sum modulo 65536, and I is all that is written. -/
theorem addToIndexWrapsAtSixteenBits : Obligations.AddToIndexWrapsAtSixteenBits := fun x =>
  ⟨decodes_number (.addI x), fun s => ⟨_, rfl, add_zextByte_toNat s.I (s.readV x), rfl, frame_setI s _⟩⟩

/-- Settles O40: the product fits into I for every byte. -/
theorem loadFontAddressIsFiveTimesVx : Obligations.LoadFontAddressIsFiveTimesVx := fun x =>
  ⟨decodes_number (.ldF x), fun s => ⟨_, rfl, zextByte_mul_five_toNat (s.readV x), rfl, frame_setI s _⟩⟩

/-- Settles O41: one write of the three digits, or the raise of the range check. -/
theorem storeBcdWritesThreeDigits : Obligations.StoreBcdWritesThreeDigits := by
  refine fun x => ⟨decodes_number (.ldB x), fun s => ⟨fun hI => ?_, fun hI => execLdB_error x (Nat.lt_succ_of_le hI)⟩⟩
  refine ⟨_, execLdB_ok x (Nat.succ_le_of_lt hI), fun hm => ?_, rfl, ?_⟩
  · exact ⟨State.read_storeDigits x hm hI (k := 0) rfl, State.read_storeDigits x hm hI (k := 1) rfl,
      State.read_storeDigits x hm hI (k := 2) rfl⟩
  · exact (Frame.advance s _).writeBytes fun k hk => ⟨k, hk, rfl⟩

/-- Settles O42: one write of the block, or the raise of the range check. -/
theorem storeRegistersWritesTheBlock : Obligations.StoreRegistersWritesTheBlock := by
  refine fun x => ⟨decodes_number (.ldMemV x), fun s => ⟨fun hx => ?_, execLdMemV_error x⟩⟩
  refine ⟨_, execLdMemV_ok x hx, fun hm r hr => State.read_storeBlock hm hx hr, rfl, ?_⟩
  exact (Frame.advance s _).writeBytes fun k hk => ⟨k, Nat.le_of_lt_succ (hk.trans_eq (s.block_length x)), rfl⟩

/-- Settles O43: the block loaded, or the raise of the range check. -/
theorem loadRegistersReadsTheBlock : Obligations.LoadRegistersReadsTheBlock := by
  refine fun x => ⟨decodes_number (.ldVMem x), fun s => ⟨fun hx => ?_, execLdVMem_error x⟩⟩
  refine ⟨_, execLdVMem_ok x hx, fun r hr => State.readV_loadBlock_of_le hr, rfl, ?_⟩
  exact (Frame.advance s _).loadBlock fun r hr => ⟨r, hr, rfl⟩

end Sys2Proof.Claims

/-!
PROOF. The keypad and the timers: EX9E and EXA1 (O45), FX0A (O46), FX15 and FX18 (O48), and FX07 with who writes DT (O47).
-/

namespace Sys2Proof.Machine

/-- LOAD copies the ROM or changes nothing (R73). -/
theorem perform_load_inv {rom : List Byte} {s t : State} {r : Reply} (h : perform (.load rom) s = .next (r, t)) :
    t = s.copyRom rom ∨ t = s := by
  rcases Nat.lt_or_ge 3584 rom.length with hl | hl
  · cases (perform_load_error hl s).symm.trans h
    exact .inr rfl
  · cases (perform_load_ok hl s).symm.trans h
    exact .inl rfl

/-- R213: the scan answers the key that is pressed with none below it. -/
theorem State.lowestPressed_of_lowest {s : State} {k : Fin 16} (hk : s.key[k.val] = true)
    (hbelow : ∀ j : Fin 16, j < k → s.key[j.val] = false) : s.lowestPressed = some k.val :=
  State.lowestPressed_eq_some.2 ⟨k.isLt, hk, fun j hj => hbelow ⟨j, hj.trans k.isLt⟩ hj⟩

end Sys2Proof.Machine

namespace Sys2Proof.Claims

open Sys2Proof.Machine

/-! ## The key skips -/

section
variable {s : State} {x : RegIdx} {k : Fin 16}

theorem skp_answers (hk : (s.readV x).toNat = k.val) : Answers (.skp x) s fun t =>
    (t.pc = if s.key[k.val] = true then s.pc + 4 else s.pc + 2) ∧ Frame s t fun _ => False := by
  have hexec : exec (.skp x) s = .next (s.advance.skipIf s.key[k.val]) := by
    simp only [exec_skp, execSkp_ok x (hk ▸ k.isLt), hk]
  exact ⟨_, hexec, State.advance_skipIf_pc s _, (Frame.advance s _).skipIf _⟩

theorem sknp_answers (hk : (s.readV x).toNat = k.val) : Answers (.sknp x) s fun t =>
    (t.pc = if s.key[k.val] = true then s.pc + 2 else s.pc + 4) ∧ Frame s t fun _ => False := by
  have hexec : exec (.sknp x) s = .next (s.advance.skipIf !s.key[k.val]) := by
    simp only [exec_sknp, execSknp_ok x (hk ▸ k.isLt), hk]
  refine ⟨_, hexec, ?_, (Frame.advance s _).skipIf _⟩
  rw [State.advance_skipIf_pc]
  cases s.key[k.val] <;> rfl

end

/-! ## Who writes DT -/

section
variable {i : Instr} {s t : State} {r : Reply}

theorem mayChange_delay (h : mayChange s i .delay) : ∃ x, i = .ldDtV x := by
  cases i <;> simp [mayChange] at h ⊢

theorem exec_DT (h : exec i s = .next t) (hi : ∀ x, i ≠ .ldDtV x) : t.DT = s.DT := by
  rcases exec_next h with ⟨e, rfl⟩ | hframe
  · rfl
  · exact hframe .delay fun hp => (mayChange_delay hp).elim hi

/-- A step that does not run FX15 keeps DT. -/
theorem step_DT (h : step s = .next t) (hdt : s.status = .running → ∀ y, ¬ Fetches s (.ldDtV y)) : t.DT = s.DT := by
  rcases step_cases s with ⟨-, ht⟩ | ⟨-, e, -, ht⟩ | ⟨hrun, i, hf, ht⟩
  · exact Host.Outcome.next.inj (ht.symm.trans h) ▸ rfl
  · exact Host.Outcome.next.inj (ht.symm.trans h) ▸ rfl
  · exact exec_DT (ht.symm.trans h) fun y hy => hdt hrun y (fetches_of_fetchInstr (hy ▸ hf))

/-- A command other than TICK and RESET keeps DT, unless it is a STEP that runs FX15. -/
theorem perform_DT {c : Command} (htick : c ≠ .tick) (hreset : c ≠ .reset)
    (hdt : c = .step → s.status = .running → ∀ y, ¬ Fetches s (.ldDtV y)) (h : perform c s = .next (r, t)) :
    t.DT = s.DT := by
  cases c with
  | tick => exact absurd rfl htick
  | reset => exact absurd rfl hreset
  | step => exact step_DT (perform_step_inv h).1 (hdt rfl)
  | load rom => rcases perform_load_inv h with rfl | rfl <;> rfl
  | key k b =>
    obtain ⟨-, -, rfl⟩ := perform_key_inv h
    rfl
  | readDisplay =>
    cases h
    rfl

/-- In the run of these commands from this state no STEP runs FX15. -/
def NeverRunsLdDtV (cs : List Command) (s : State) : Prop :=
  ∀ (pre post : List Command) (u : State) (qs : List Reply), cs = pre ++ .step :: post →
    performAll pre s = .next (qs, u) → u.status = .running → ∀ y, ¬ Fetches u (.ldDtV y)

theorem NeverRunsLdDtV.head {c : Command} {cs : List Command} (h : NeverRunsLdDtV (c :: cs) s) (hc : c = .step) :
    s.status = .running → ∀ y, ¬ Fetches s (.ldDtV y) :=
  h [] cs s [] (hc ▸ rfl) rfl

theorem NeverRunsLdDtV.tail {c : Command} {cs : List Command} (h : NeverRunsLdDtV (c :: cs) s)
    (hc : perform c s = .next (r, t)) : NeverRunsLdDtV cs t := by
  rintro pre post u qs rfl hpre
  exact h (c :: pre) post u (r :: qs) rfl (performAll_cons.2 ⟨r, t, qs, hc, hpre, rfl⟩)

/-- A run with no TICK and no RESET in which no STEP runs FX15 keeps DT. -/
theorem performAll_DT {cs : List Command} {rs : List Reply} (htick : Command.tick ∉ cs) (hreset : Command.reset ∉ cs)
    (hdt : NeverRunsLdDtV cs s) (h : performAll cs s = .next (rs, t)) : t.DT = s.DT := by
  induction cs generalizing s rs with
  | nil =>
    cases h
    rfl
  | cons c cs ih =>
    obtain ⟨htickHead, htickTail⟩ := List.ne_and_not_mem_of_not_mem_cons htick
    obtain ⟨hresetHead, hresetTail⟩ := List.ne_and_not_mem_of_not_mem_cons hreset
    obtain ⟨r, u, rs', hc, hcs, -⟩ := performAll_cons.1 h
    calc t.DT = u.DT := ih htickTail hresetTail (hdt.tail hc) hcs
      _ = s.DT := perform_DT htickHead.symm hresetHead.symm hdt.head hc

end

/-- R215: FX07 copies DT into V[x]. -/
theorem ldVDt_answers (x : RegIdx) (s : State) : Answers (.ldVDt x) s fun t =>
    t.readV x = s.DT ∧ t.pc = s.pc + 2 ∧ Frame s t fun p => p = .v x :=
  ⟨_, rfl, State.readV_writeV_self, rfl, frame_writeV⟩

/-- Settles O47: FX15 alone may change DT, so a run without it keeps DT (`performAll_DT`), and an FX07 after the run copies
the value from before it. -/
theorem readDelayTimerCopiesDT : Obligations.ReadDelayTimerCopiesDT := by
  refine fun x => ⟨decodes_number (.ldVDt x), ldVDt_answers x, fun i s t hi h => exec_DT h hi,
    fun cs s t rs htick hreset hdt h => ?_⟩
  have hDT : t.DT = s.DT := performAll_DT htick hreset hdt h
  refine ⟨hDT, fun y => ?_⟩
  obtain ⟨w, hw, hread, -⟩ := ldVDt_answers y t
  exact ⟨w, hw, hread.trans hDT⟩

/-- Settles O45: V[x] names a key, or the lookup raises before anything changes. -/
theorem keySkipsReadTheKeypad : Obligations.KeySkipsReadTheKeypad := fun x =>
  ⟨decodes_number (.skp x), decodes_number (.sknp x), fun _ =>
    ⟨fun _ hk => ⟨skp_answers hk, sknp_answers hk⟩, fun hv => ⟨execSkp_error x hv, execSknp_error x hv⟩⟩⟩

/-- Settles O46: the scan answers the lowest pressed key, whose index fits into a byte, or none. -/
theorem waitForKeyTakesTheLowestOrRepeats : Obligations.WaitForKeyTakesTheLowestOrRepeats := by
  refine fun x => ⟨decodes_number (.ldK x), fun s => ⟨fun k hk hbelow => ?_, fun hnone =>
    execLdK_waits x (State.lowestPressed_eq_none.2 hnone)⟩⟩
  refine ⟨_, execLdK_pressed x (State.lowestPressed_of_lowest hk hbelow), ?_, rfl, frame_writeV⟩
  rw [State.readV_writeV_self, BitVec.toNat_ofNat]
  exact Nat.mod_eq_of_lt (k.isLt.trans (by decide))

/-- Settles O48: each copies V[x] into its timer; a TICK takes one off, floored at 0, and beeps when it takes the last. -/
theorem setTimersCopyVx : Obligations.SetTimersCopyVx := by
  refine fun x => ⟨decodes_number (.ldDtV x), decodes_number (.ldStV x), fun s =>
    ⟨⟨s.advance.setDT (s.readV x), rfl, rfl, rfl, (Frame.advance s (· = .delay)).setDT rfl _, tickDown_toNat _, ?_⟩,
      ⟨_, rfl, rfl, rfl, (Frame.advance s (· = .sound)).setST rfl _, _, perform_tick _, beeps_iff _⟩⟩⟩
  change (tickDown (tickDown (tickDown (s.readV x)))).toNat = _
  simp only [tickDown_toNat, Nat.sub_sub]

end Sys2Proof.Claims

/-!
PROOF. Errors: a Running step halts exactly with the error of its first failing check, and changes nothing else (O9, O10);
a STEP while Halted (O8).
-/

namespace Sys2Proof.Claims

open Sys2Proof.Machine

section
variable {i : Instr} {s t : State} {e e' : FatalError}

/-! ## Fetch and the instructions' checks -/

/-- Fetch fails by its range check, or by a word that decodes to no instruction. -/
theorem fetchInstr_eq_error_iff : s.fetchInstr = .error e ↔
    (4096 ≤ s.pc.toNat + 1 ∧ e = .pcOutOfRange s.pc) ∨
    (s.pc.toNat + 1 < 4096 ∧ decodeWord (wordAt s) = none ∧ e = .unsupportedOpcode (wordAt s)) := by
  constructor
  · intro h
    rcases Nat.lt_or_ge (s.pc.toNat + 1) 4096 with hpc | hpc
    · cases hd : decodeWord (wordAt s) with
      | none =>
        cases (fetchInstr_of_unsupported hpc hd).symm.trans h
        exact .inr ⟨hpc, rfl, rfl⟩
      | some i => cases (fetchInstr_of_fetches ⟨hpc, hd⟩).symm.trans h
    · cases (State.fetchInstr_error_of_pc hpc).symm.trans h
      exact .inl ⟨hpc, rfl⟩
  · rintro (⟨hpc, rfl⟩ | ⟨hpc, hd, rfl⟩)
    · exact State.fetchInstr_error_of_pc hpc
    · exact fetchInstr_of_unsupported hpc hd

/-- An instruction whose check fails raises the error of that check. -/
theorem raises_of_instrError (h : InstrError s i e) : Raises i s e := by
  cases i with
  | ret => obtain ⟨hsp, rfl⟩ := h; exact execRet_error hsp
  | call nnn => obtain ⟨hsp, rfl⟩ := h; exact execCall_error nnn hsp
  | drw x y n => obtain ⟨hn, hI, rfl⟩ := h; exact execDrw_error x y hn (by omega)
  | ldB x => obtain ⟨hI, rfl⟩ := h; exact execLdB_error x (by omega)
  | ldMemV x => obtain ⟨hI, rfl⟩ := h; exact execLdMemV_error x hI
  | ldVMem x => obtain ⟨hI, rfl⟩ := h; exact execLdVMem_error x hI
  | skp x => obtain ⟨hv, rfl⟩ := h; exact execSkp_error x hv
  | sknp x => obtain ⟨hv, rfl⟩ := h; exact execSknp_error x hv
  | _ => exact h.elim

/-- An instruction whose check does not fail leaves the status as it was. -/
theorem status_of_no_instrError (h : ∀ e, ¬ InstrError s i e) : Answers i s fun t => t.status = s.status := by
  cases i with
  | ret => exact ⟨_, execRet_ok (Nat.pos_of_ne_zero fun hsp => h _ ⟨hsp, rfl⟩), rfl⟩
  | call nnn =>
    have hsp : s.SP.val ≠ 16 := fun hsp => h _ ⟨hsp, rfl⟩
    exact ⟨_, execCall_ok nnn (by omega), rfl⟩
  | drw x y n =>
    have hrange : ¬ (0 < n.val ∧ 4096 ≤ s.I.toNat + n.val - 1) := fun ⟨hn, hI⟩ => h _ ⟨hn, hI, rfl⟩
    exact ⟨_, execDrw_ok x y (by omega), rfl⟩
  | ldB x =>
    have hI : s.I.toNat + 2 < 4096 := Nat.lt_of_not_le fun hI => h _ ⟨hI, rfl⟩
    exact ⟨_, execLdB_ok x hI, rfl⟩
  | ldMemV x => exact ⟨_, execLdMemV_ok x (Nat.lt_of_not_le fun hI => h _ ⟨hI, rfl⟩), rfl⟩
  | ldVMem x => exact ⟨_, execLdVMem_ok x (Nat.lt_of_not_le fun hI => h _ ⟨hI, rfl⟩), rfl⟩
  | skp x => exact ⟨_, execSkp_ok x (Nat.lt_of_not_le fun hv => h _ ⟨hv, rfl⟩), State.skipIf_status _ _⟩
  | sknp x => exact ⟨_, execSknp_ok x (Nat.lt_of_not_le fun hv => h _ ⟨hv, rfl⟩), State.skipIf_status _ _⟩
  | ldK x =>
    rcases ldK_cases x s with hk | ⟨k, hk⟩
    · exact ⟨_, hk, rfl⟩
    · exact ⟨_, hk, rfl⟩
  | seImm | sneImm | seReg | sneReg => exact ⟨_, rfl, State.skipIf_status _ _⟩
  | _ => exact ⟨_, rfl, rfl⟩

/-! ## The errors of a step -/

/-- The error of the first failing check is raised, on the state in which the step began. -/
theorem step_of_stepError (hrun : s.status = .running) (h : StepError s e) :
    step s = .next { s with status := .halted e } := by
  rcases h with hpc | hword | ⟨i, hf, hi⟩
  · exact step_error hrun (fetchInstr_eq_error_iff.2 (.inl hpc))
  · exact step_error hrun (fetchInstr_eq_error_iff.2 (.inr hword))
  · exact (step_ok hrun (fetchInstr_of_fetches hf)).trans (raises_of_instrError hi)

/-- No other error is: a step without a failing check stays Running. -/
theorem stepError_of_step (hrun : s.status = .running) (h : step s = .next t) (ht : t.status = .halted e) :
    StepError s e := by
  suffices hraise : ∃ e', StepError s e' by
    obtain ⟨e', he'⟩ := hraise
    cases (step_of_stepError hrun he').symm.trans h
    cases ht
    exact he'
  rcases step_cases s with ⟨⟨e', hhalt⟩, -⟩ | ⟨-, e', hf, -⟩ | ⟨-, i, hf, hs⟩
  · cases hhalt.symm.trans hrun
  · exact ⟨e', or_assoc.1 (.inl (fetchInstr_eq_error_iff.1 hf))⟩
  · by_contra hno
    have hstatus := (status_of_no_instrError fun e' hi =>
      hno ⟨e', .inr (.inr ⟨i, fetches_of_fetchInstr hf, hi⟩)⟩).post (hs.symm.trans h)
    cases ht.symm.trans (hstatus.trans hrun)

theorem stepError_unique (hrun : s.status = .running) (h : StepError s e) (h' : StepError s e') : e = e' := by
  cases (step_of_stepError hrun h).symm.trans (step_of_stepError hrun h')
  rfl

end

/-- Settles O10: a failing check is raised (`step_of_stepError`), and nothing else is (`stepError_of_step`). -/
theorem stepRaisesExactlyTheListedErrors : Obligations.StepRaisesExactlyTheListedErrors := fun _ hrun =>
  ⟨fun _ => ⟨fun ⟨_, hs, ht⟩ => stepError_of_step hrun hs ht, fun h => ⟨_, step_of_stepError hrun h, rfl⟩⟩,
    fun _ _ => stepError_unique hrun⟩

/-- Settles O9: a step that ends Halted met one of the listed errors, and each is raised on the state before the step. -/
theorem fatalErrorsArePrecise : Obligations.FatalErrorsArePrecise := fun _ _ _ hrun h ht =>
  Host.Outcome.next.inj (h.symm.trans (step_of_stepError hrun (stepError_of_step hrun h ht)))

/-- Settles O8: the next state is the state itself, and its status gives the reply. -/
theorem haltedStepChangesNothing : Obligations.HaltedStepChangesNothing := by
  intro s e hhalt
  have hreply : s.stepReply = .fatal e := by rw [State.stepReply, hhalt]
  exact ⟨step_halted hhalt, hreply ▸ perform_step_of_next (step_halted hhalt)⟩

end Sys2Proof.Claims

/-!
PROOF. Runs of host commands: the invariant (O14), Halted (O54) and Parked (O56); TICK (O49), KEY and READ_DISPLAY (O51).
-/

namespace Sys2Proof.Machine

/-- What every command of a run keeps, the run keeps. -/
theorem performAll_keeps {P : State → Prop} {cs : List Command} {s t : State} {rs : List Reply}
    (hkeep : ∀ c ∈ cs, ∀ u v r, P u → perform c u = .next (r, v) → P v) (hs : P s)
    (h : performAll cs s = .next (rs, t)) : P t := by
  induction cs generalizing s rs with
  | nil => cases h; exact hs
  | cons c cs ih =>
    obtain ⟨r, u, rs', hc, hcs, -⟩ := performAll_cons.1 h
    exact ih (fun c' hc' => hkeep c' (List.mem_cons_of_mem c hc')) (hkeep c List.mem_cons_self s u r hs hc) hcs

/-- The state with other memory, timers and keys: the parts that LOAD, TICK and KEY write. -/
def State.withHostParts (s : State) (m : Memory) (d b : Byte) (k : Vector Bool 16) : State :=
  { s with mem := m, DT := d, ST := b, key := k }

/-- Where STEP changes nothing, the host's commands but RESET write the host's parts only, and memory only by LOAD. -/
theorem perform_of_idle {c : Command} {s t : State} {r : Reply} (hidle : step s = .next s) (hreset : c ≠ .reset)
    (h : perform c s = .next (r, t)) :
    ∃ m d b k, t = s.withHostParts m d b k ∧ ((∀ rom, c ≠ .load rom) → m = s.mem) := by
  cases c with
  | reset => exact absurd rfl hreset
  | load rom =>
    rcases perform_load_inv h with rfl | rfl
    · exact ⟨_, _, _, _, rfl, fun hload => absurd rfl (hload rom)⟩
    · exact ⟨_, _, _, _, rfl, fun _ => rfl⟩
  | step =>
    cases (perform_step_of_next hidle).symm.trans h
    exact ⟨_, _, _, _, rfl, fun _ => rfl⟩
  | key k b =>
    obtain ⟨-, -, rfl⟩ := perform_key_inv h
    exact ⟨_, _, _, _, rfl, fun _ => rfl⟩
  | tick | readDisplay =>
    cases h
    exact ⟨_, _, _, _, rfl, fun _ => rfl⟩

/-- A jump to itself writes the pc that is there (R141). -/
theorem step_parked {s : State} (h : s.parked) : step s = .next s := by
  obtain ⟨hrun, nnn, hf, hself⟩ := h
  rw [step_ok hrun hf, exec_jp, execJp, hself]
  rfl

/-- Parked does not depend on the timers and the keys. -/
theorem State.parked.withHostParts {s : State} (h : s.parked) (d b : Byte) (k : Vector Bool 16) :
    (s.withHostParts s.mem d b k).parked := h

end Sys2Proof.Machine

namespace Sys2Proof.Claims

open Sys2Proof.Machine

theorem Frame.setKey {s t : State} {P : StatePart → Prop} (h : Frame s t P) {k : Fin 16} (hk : P (.key k)) (b : Bool) :
    Frame s (t.setKey k.val b) P := by
  intro p hp
  have hsame := h p hp
  cases p with
  | key j =>
    have hj : k.val ≠ j.val := fun hj => hp (Fin.ext hj ▸ hk)
    exact (Vector.getElem_setIfInBounds_ne j.isLt hj).trans hsame
  | _ => exact hsame

/-- With memory as it was, the host's parts are the timers and the keys. -/
theorem frame_withHostParts (s : State) (d b : Byte) (k : Vector Bool 16) :
    Frame s (s.withHostParts s.mem d b k) fun p => p = .delay ∨ p = .sound ∨ ∃ k, p = .key k := by
  intro p hp
  cases p with
  | delay => exact absurd (.inl rfl) hp
  | sound => exact absurd (.inr (.inl rfl)) hp
  | key j => exact absurd (.inr (.inr ⟨j, rfl⟩)) hp
  | _ => rfl

theorem perform_keeps_inv {c : Command} {s t : State} {r : Reply} (hs : s.Inv) (h : perform c s = .next (r, t)) :
    t.Inv := by
  cases c with
  | load rom =>
    rcases Nat.lt_or_ge 3584 rom.length with hl | hl
    · cases (perform_load_error hl s).symm.trans h
      exact hs
    · cases (perform_load_ok hl s).symm.trans h
      exact hs.writeBytes (Nat.add_le_add_left hl 0x200)
  | step => exact stepKeepsInvariant s t hs (perform_step_inv h).1
  | tick =>
    cases h
    exact hs.congr rfl rfl rfl
  | key k b =>
    obtain ⟨-, -, rfl⟩ := perform_key_inv h
    exact hs.congr rfl rfl rfl
  | readDisplay =>
    cases h
    exact hs
  | reset =>
    cases h
    exact State.Inv.congr invariantAtReset rfl rfl rfl

/-- Settles O14: every command keeps the invariant (`perform_keeps_inv`), so a run does. -/
theorem commandsKeepInvariant : Obligations.CommandsKeepInvariant := fun _ _ _ _ hs h =>
  performAll_keeps (fun _ _ _ _ _ => perform_keeps_inv) hs h

/-- Settles O54: STEP is idle while Halted, and the status is none of the host's parts, so the machine stays Halted. -/
theorem onlyResetLeavesHalted : Obligations.OnlyResetLeavesHalted := by
  intro cs s t rs e hhalt hreset h
  have hparts : ∃ m d b k, t = s.withHostParts m d b k := by
    refine performAll_keeps (P := fun u => ∃ m d b k, u = s.withHostParts m d b k) ?_ ⟨_, _, _, _, rfl⟩ h
    rintro c hc u v r ⟨m, d, b, k, rfl⟩ hv
    have hidle : step (s.withHostParts m d b k) = .next _ := step_halted hhalt
    obtain ⟨m', d', b', k', rfl, -⟩ := perform_of_idle hidle (ne_of_mem_of_not_mem hc hreset) hv
    exact ⟨m', d', b', k', rfl⟩
  obtain ⟨m, d, b, k, rfl⟩ := hparts
  exact ⟨hhalt, rfl, rfl, rfl, rfl, rfl, rfl, rfl⟩

/-- Settles O56: STEP is idle while Parked, and without LOAD the host's parts are the timers and the keys, on which Parked
does not depend. -/
theorem parkedStaysParked : Obligations.ParkedStaysParked := by
  refine fun s hs => ⟨step_parked hs, fun cs t rs hreset hload h => ?_⟩
  have hparts : ∃ d b k, t = s.withHostParts s.mem d b k := by
    refine performAll_keeps (P := fun u => ∃ d b k, u = s.withHostParts s.mem d b k) ?_ ⟨_, _, _, rfl⟩ h
    rintro c hc u v r ⟨d, b, k, rfl⟩ hv
    obtain ⟨m, d', b', k', rfl, hm⟩ :=
      perform_of_idle (step_parked (hs.withHostParts d b k)) (ne_of_mem_of_not_mem hc hreset) hv
    obtain rfl := hm fun rom => ne_of_mem_of_not_mem hc (hload rom)
    exact ⟨d', b', k', rfl⟩
  obtain ⟨d, b, k, rfl⟩ := hparts
  exact ⟨hs.withHostParts d b k, rfl, frame_withHostParts s d b k⟩

/-- Settles O49: TICK writes the two timers and reads nothing else. -/
theorem tickDecrementsBothTimersAndBeeps : Obligations.TickDecrementsBothTimersAndBeeps := fun s =>
  ⟨_, _, perform_tick s, beeps_iff s, tickDown_toNat s.DT, tickDown_toNat s.ST, rfl,
    ((Frame.refl s _).setDT (.inl rfl) _).setST (.inr rfl) _⟩

/-- Settles O51: an index below 16 names a key, and READ_DISPLAY's reply is the framebuffer itself. -/
theorem keyWritesOneKeyAndReadDisplayNothing : Obligations.KeyWritesOneKeyAndReadDisplayNothing := fun s =>
  ⟨fun k b => ⟨_, perform_key_ok k.isLt b s, Vector.getElem_setIfInBounds_self k.isLt, rfl,
      (Frame.refl s (· = .key k)).setKey rfl b⟩,
    fun _ b hk => perform_key_refused hk b s, _, perform_readDisplay s, fun _ _ => rfl⟩

end Sys2Proof.Claims

/-!
PROOF. RESET gives every element its reset value (O53).
-/

namespace Sys2Proof.Machine

/-! ## The elements that hold several values, after RESET from any state (R281) -/

@[simp] theorem State.resetByHost_readV (s : State) (r : RegIdx) : s.resetByHost.readV r = 0 :=
  Vector.getElem_replicate r.isLt

@[simp] theorem State.resetByHost_slot (s : State) (k : Fin 16) : s.resetByHost.stack[k.val] = 0 :=
  Vector.getElem_replicate k.isLt

@[simp] theorem State.resetByHost_key (s : State) (k : Fin 16) : s.resetByHost.key[k.val] = false :=
  Vector.getElem_replicate k.isLt

@[simp] theorem State.resetByHost_fb (s : State) : s.resetByHost.fb = Framebuffer.allOff := rfl

end Sys2Proof.Machine

namespace Sys2Proof.Claims

open Sys2Proof.Machine

/-- Settles O53: RESET answers `State.resetByHost` whatever the status, which takes every element but the draw counter from
`State.reset`; the registers, slots, keys and pixels are read one by one. -/
theorem resetRestoresTheInitialState : Obligations.ResetRestoresTheInitialState := by
  intro s
  have hslot (k : Fin 16) : s.resetByHost.stack[k.val].toNat = 0 := congrArg BitVec.toNat (s.resetByHost_slot k)
  have hpixel (row : Fin 32) (col : Fin 64) : Framebuffer.pixel s.resetByHost.fb row col = false := by
    rw [State.resetByHost_fb, Framebuffer.pixel_allOff]
  exact ⟨s.resetByHost, perform_reset s, rfl, s.resetByHost_readV, rfl, rfl, rfl, hslot, rfl, rfl, s.resetByHost_key,
    hpixel, rfl, rfl⟩

end Sys2Proof.Claims
